-- ==== Sys2Proof/Word.lean ====
section
/-! DEFINITION. The word types of the CORE (spec/00_scope.md rules R4 and R5): every quantity is unsigned. -/

namespace Sys2Proof

/-- A byte: a register, a memory cell, an instruction byte, an operand byte (rule R5). -/
abbrev Byte := BitVec 8

/-- A program counter value, 9 bits wide so that 256 can be told from 0 (rule R13). -/
abbrev PcWord := BitVec 9

/-- `zext_9` of rule R7: the only widening the machine does, `pc <- zext_9(byte)`. -/
abbrev zext9 (b : Byte) : PcWord := b.setWidth 9

end Sys2Proof
end

