-- ==== Sys2Proof/Config.lean ====
section
/-! DEFINITION. The implementation parameters of spec/00_scope.md rule R4. None is open: the spec leaves no value
free (spec/93_implementation_defined.md, summary of part 1). The parameter OPC, the opcode byte assignment, is
`Opcode.byte` in Decode.lean. -/

namespace Sys2Proof.Config

/-- `MEM_SIZE`: the number of memory cells; valid addresses are 0 to 255 (rules R4, R21). -/
abbrev memSize : Nat := 256

/-- `NREGS`: the number of general registers (rules R4, R10). -/
abbrev nregs : Nat := 8

/-- `SP_INDEX`: the register that is the stack pointer (rules R4, R11). -/
abbrev spIndex : Fin nregs := 7

/-- `SP_RESET`: the stack pointer after reset (rules R4, R11). -/
abbrev spReset : Byte := 0xF4#8

/-- `MAX_OPERANDS`: an instruction has at most this many operand bytes (rules R4, R52). -/
abbrev maxOperands : Nat := 2

end Sys2Proof.Config
end

