-- ==== Sys2Proof/Syntax.lean ====
section
/-! DEFINITION. The twelve instructions of the closed set (spec/30_encoding.md rule R56), one constructor for each row
of spec/opcode_table.json. Operands are the operand BYTES as fetched: the engine passes them to the handler
uninterpreted and the handler checks those that are register indices (rules R73, R54; notes/assumptions/7.md). -/

namespace Sys2Proof

/-- An instruction with its operand bytes. `a` is the first operand byte, `b` the second. -/
inductive Instr where
  /-- HLT, format N (rule R105). -/
  | hlt
  /-- RET, format N (rule R107). -/
  | ret
  /-- PUSH Ra, format R (rule R100). -/
  | push (a : Byte)
  /-- POP Ra, format R (rule R101). -/
  | pop (a : Byte)
  /-- PRN Ra, format R (rule R96). -/
  | prn (a : Byte)
  /-- CALL Ra, format R (rule R106). -/
  | call (a : Byte)
  /-- JMP Ra, format R (rule R108). -/
  | jmp (a : Byte)
  /-- JEQ Ra, format R (rule R109). -/
  | jeq (a : Byte)
  /-- JNE Ra, format R (rule R110). -/
  | jne (a : Byte)
  /-- LDI Ra, imm, format RI (rule R95). -/
  | ldi (a imm : Byte)
  /-- MUL Ra, Rb, format RR (rule R89). -/
  | mul (a b : Byte)
  /-- CMP Ra, Rb, format RR (rule R90). -/
  | cmp (a b : Byte)
deriving DecidableEq, Repr

end Sys2Proof
end

