-- ==== Sys2Proof/Decode.lean ====
section
/-! DEFINITION. The instruction byte, the dispatch table, the decoder and the encoder (spec/30_encoding.md rules R50 to
R58 and R63; spec/40_engine_cycle.md rules R72 to R75). The dispatch key is the whole byte (rule R51). -/

namespace Sys2Proof

/-! ### The fields of an instruction byte (rule R50) -/

/-- `AA`, bits 7:6: the number of operand bytes that follow. -/
def fieldAA (ir : Byte) : BitVec 2 := ir.extractLsb' 6 2

/-- `B`, bit 5: set for an ALU instruction. Descriptive only (rule R51). -/
def fieldB (ir : Byte) : Bool := ir.getLsbD 5

/-- `C`, bit 4: set for an instruction that writes `pc` itself. Descriptive only; HLT is the exception (rule R51). -/
def fieldC (ir : Byte) : Bool := ir.getLsbD 4

/-- `DDDD`, bits 3:0: the opcode identifier. -/
def fieldDDDD (ir : Byte) : BitVec 4 := ir.extractLsb' 0 4

/-! ### The dispatch table (rule R56) -/

/-- The twelve handlers the dispatch table can select (rule R75). -/
inductive Opcode where
  | hlt | ret | push | pop | prn | call | jmp | jeq | jne | ldi | mul | cmp
deriving DecidableEq, Repr

/-- The instruction byte of each handler, the parameter `OPC` (rule R56). The values are the spec's decision D1, which
it marks as general knowledge and not from its source (notes/assumptions/1.md). -/
def Opcode.byte : Opcode → Byte
  | .hlt  => 0b00000001#8
  | .ret  => 0b00010001#8
  | .push => 0b01000101#8
  | .pop  => 0b01000110#8
  | .prn  => 0b01000111#8
  | .call => 0b01010000#8
  | .jmp  => 0b01010100#8
  | .jeq  => 0b01010101#8
  | .jne  => 0b01010110#8
  | .ldi  => 0b10000010#8
  | .mul  => 0b10100010#8
  | .cmp  => 0b10100111#8

/-- Every row of the table, in its order. -/
def Opcode.all : List Opcode :=
  [.hlt, .ret, .push, .pop, .prn, .call, .jmp, .jeq, .jne, .ldi, .mul, .cmp]

/-- `Dispatch(ir)` of rule R72: all eight bits are compared. Any other byte has no handler (rule R58). -/
def dispatch (ir : Byte) : Option Opcode := Opcode.all.find? fun op => op.byte == ir

/-- The operand count of an instruction byte, its `AA` field (rule R52). -/
def operandCountOf (ir : Byte) : Nat := (fieldAA ir).toNat

/-- The operand count of a handler, read from its byte (rules R52, R73). -/
def Opcode.operandCount (op : Opcode) : Nat := operandCountOf op.byte

/-- The length in bytes: one instruction byte and the operands (rule R52). -/
def Opcode.length (op : Opcode) : Nat := 1 + op.operandCount

/-- The PC-setting class of rule R74, an attribute of each instruction and not a test of bit 4: for these the engine
does not advance `pc`. -/
def Opcode.pcSetting : Opcode → Bool
  | .hlt | .call | .ret | .jmp | .jeq | .jne => true
  | .ldi | .mul | .cmp | .prn | .push | .pop => false

/-- The handler with its operand bytes (rule R53). Operand bytes the format does not have are not looked at. -/
def Opcode.assemble (op : Opcode) (a b : Byte) : Instr :=
  match op with
  | .hlt  => .hlt
  | .ret  => .ret
  | .push => .push a
  | .pop  => .pop a
  | .prn  => .prn a
  | .call => .call a
  | .jmp  => .jmp a
  | .jeq  => .jeq a
  | .jne  => .jne a
  | .ldi  => .ldi a b
  | .mul  => .mul a b
  | .cmp  => .cmp a b

/-! ### The decoder -/

/-- Why a byte sequence holds no instruction at its front. -/
inductive DecodeError where
  /-- The sequence is empty. -/
  | noByte
  /-- The first byte is not in the dispatch table (rule R58). -/
  | undefinedByte (ir : Byte)
  /-- The sequence ends before the handler's operand bytes do. -/
  | missingOperand (op : Opcode)
deriving DecidableEq, Repr

/-- The instruction at the front of a byte sequence, first byte first, and the bytes after it. Decode comes before any
operand byte is looked at (rule R72), and only the operand count's worth of operands is taken (rule R73). -/
def decode : List Byte → Except DecodeError (Instr × List Byte)
  | [] => .error .noByte
  | ir :: bytes =>
    match dispatch ir with
    | none => .error (.undefinedByte ir)
    | some op =>
      match op.operandCount, bytes with
      | 0, rest => .ok (op.assemble 0 0, rest)
      | 1, a :: rest => .ok (op.assemble a 0, rest)
      | 2, a :: b :: rest => .ok (op.assemble a b, rest)
      | _, _ => .error (.missingOperand op)

/-- The bytes of a table word, bit 0 the least significant bit of the first byte: as many bytes as the longest
instruction has, those above `nbits` zero. -/
def tableWordBytes (nbits w : Nat) : List Byte :=
  let v := w % 2 ^ nbits
  [BitVec.ofNat 8 v, BitVec.ofNat 8 (v / 2 ^ 8), BitVec.ofNat 8 (v / 2 ^ 16)]

/-- What the decoder reads from an instruction given as a table word. -/
def decodeTableWord (nbits w : Nat) : Option Instr :=
  match decode (tableWordBytes nbits w) with
  | .ok (i, _) => some i
  | .error _ => none

/-! ### The encoder (rule R63) -/

/-- The handler of an instruction. -/
def Instr.opcode : Instr → Opcode
  | .hlt => .hlt
  | .ret => .ret
  | .push _ => .push
  | .pop _ => .pop
  | .prn _ => .prn
  | .call _ => .call
  | .jmp _ => .jmp
  | .jeq _ => .jeq
  | .jne _ => .jne
  | .ldi _ _ => .ldi
  | .mul _ _ => .mul
  | .cmp _ _ => .cmp

/-- The operand bytes of an instruction, in operand order (rule R53). -/
def Instr.operandBytes : Instr → List Byte
  | .hlt => []
  | .ret => []
  | .push a => [a]
  | .pop a => [a]
  | .prn a => [a]
  | .call a => [a]
  | .jmp a => [a]
  | .jeq a => [a]
  | .jne a => [a]
  | .ldi a v => [a, v]
  | .mul a b => [a, b]
  | .cmp a b => [a, b]

/-- The bytes of an instruction in memory order: the instruction byte, then the operands (rule R63). -/
def encode (i : Instr) : List Byte := i.opcode.byte :: i.operandBytes

/-- A register number as an operand byte (rule R63). -/
def regByte (i : Fin Config.nregs) : Byte := BitVec.ofNat 8 i.val

end Sys2Proof
end

