-- ==== Sys2Proof/Machine/State.lean ====
section
/-! DEFINITION. The state of the CORE as plain data: the tuple of spec/10_state.md (rules R10 to R22), the machine right
after reset (rule R140 of spec/70_reset_and_hazards.md), and the reasons a step could end other than in a next state.
A fatal error of spec/60_exceptions.md is NOT such a reason: it is a next state whose `run` is `error`
(notes/assumptions/6.md). -/

namespace Sys2Proof.Machine

/-- The run state (rule R18). `halted` and `error` are terminal and left by reset only. -/
inductive RunState where
  | running
  | halted
  | error
deriving DecidableEq, Repr

/-- Which range an `OutOfBoundsAccess` left: memory addresses or register indices (rule R121). -/
inductive Space where
  | mem
  | reg
deriving DecidableEq, Repr

/-- The error kinds of rule R120, with the space tag that rule R121 asks a model to keep. -/
inductive ErrorKind where
  /-- Code 0: no error. -/
  | none
  /-- Code 1: raised by the opcode fetch, the operand fetch, a register operand and CALL (rule R121). -/
  | outOfBoundsAccess (space : Space)
  /-- Code 2: raised by the decode step (rule R122). -/
  | decodeFailure
  /-- Code 3: raised by no rule (rules R91, R123). -/
  | unsupportedALUOperation
  /-- Code 4: raised by LDI to register 7 (rule R125). -/
  | protectedRegisterWrite
  /-- Code 5: the external loader's, never raised by the core (rule R124). -/
  | programLoadFailure
deriving DecidableEq, Repr

/-- The error record `err` (rule R19). -/
structure ErrorRecord where
  kind : ErrorKind
  /-- `pc` at the start of the failing cycle. -/
  pc : PcWord
  /-- The instruction byte, 0 when the opcode fetch itself failed. -/
  ir : Byte
  /-- The failing address, register index byte or instruction byte. -/
  info : BitVec 9
deriving DecidableEq, Repr

/-- The error record after reset (rules R19, R140). -/
def ErrorRecord.noError : ErrorRecord := { kind := .none, pc := 0, ir := 0, info := 0 }

/-- The 256 memory cells, as the list of those that differ from the reset value 0 (rule R21), addresses strictly
rising; the form is `Memory.wf` in Ops.lean. -/
abbrev Memory := List Host.Cell

/-- The state tuple of spec/10_state.md; rule R22 says there is no other state. -/
structure State where
  /-- The general registers `R0` to `R7` (rule R10); `x[7]` is the stack pointer (rule R11). -/
  x : Vector Byte Config.nregs
  /-- The program counter (rule R13). -/
  pc : PcWord
  /-- The flags register `00000LGE` (rule R15). -/
  fl : Byte
  /-- The hidden return-address latch (rule R17). -/
  ra : Byte
  /-- The run state (rule R18). -/
  run : RunState
  /-- The error record (rule R19). -/
  err : ErrorRecord
  /-- The output trace, oldest byte first (rule R20). -/
  out : List Byte
  /-- The memory (rule R21). -/
  mem : Memory
deriving DecidableEq, Repr

/-- Reasons to stop with a fault. There are none: every fatal error the spec describes is an entry into the terminal
error state, which is a next state (rules R78, R127). Safe: nothing is cut off by a fault. -/
inductive Fault where
deriving DecidableEq, Repr

/-- Reasons to refuse. -/
inductive Refusal where
  /-- Raised by a dispatch arm whose instruction has no meaning yet; no arm of this model is one. Safe: the machine
  stops where the hardware goes on. -/
  | notModelled (mnemonic : String)
deriving DecidableEq, Repr

/-- The machine right after reset, field by field from the table of rule R140. It is also the launch state of the
empty image (rules R146, R147; notes/assumptions/10.md). -/
def State.reset : State where
  x := #v[0, 0, 0, 0, 0, 0, 0, Config.spReset]
  pc := 0
  fl := 0
  ra := 0
  run := .running
  err := ErrorRecord.noError
  out := []
  mem := []

end Sys2Proof.Machine
end

