-- ==== Sys2Proof/Machine/Ops.lean ====
section
/-! DEFINITION. The named operations over memory and registers (spec/00_scope.md rules R6 and R7, spec/20_memory.md), the
one operation that takes a fatal error (spec/60_exceptions.md rule R127), and the engine's advance (spec/40_engine_cycle.md
rule R74). There is no return from an error (rule R128): only reset leaves the error state. -/

namespace Sys2Proof.Machine

/-! ### Memory -/

/-- What a cell that is not listed holds: the reset value (rule R21). -/
def Memory.unlisted : Byte := 0

/-- The byte in cell `a`. -/
def Memory.read : Memory → Nat → Byte
  | [], _ => Memory.unlisted
  | (k, v) :: rest, a => if k = a then v else Memory.read rest a

/-- Forget cell `a`, so that it reads as an unlisted cell. -/
def Memory.erase (m : Memory) (a : Nat) : Memory := m.filter fun c => c.1 != a

/-- List cell `a` with value `v`, at its place in the rising order. -/
def Memory.insert : Memory → Nat → Byte → Memory
  | [], a, v => [(a, v)]
  | (k, w) :: rest, a, v =>
    if a < k then (a, v) :: (k, w) :: rest
    else if a = k then (a, v) :: rest
    else (k, w) :: Memory.insert rest a v

/-- `mem[a] <- v` (rule R30); every other cell keeps its value. -/
def Memory.write (m : Memory) (a : Nat) (v : Byte) : Memory :=
  if v = Memory.unlisted then m.erase a else m.insert a v

/-- Write consecutive cells from `a` upward; bytes that would fall outside the 256 cells are dropped. -/
def Memory.writeBytes : Memory → Nat → List Byte → Memory
  | m, _, [] => m
  | m, a, v :: rest =>
    Memory.writeBytes (if a < Config.memSize then m.write a v else m) (a + 1) rest

/-- The canonical form: addresses strictly rising, all below `MEM_SIZE`, and no entry equal to what an unlisted cell
reads as. -/
abbrev Memory.wf (m : Memory) : Prop :=
  m.Pairwise (fun c d => c.1 < d.1) ∧ ∀ c ∈ m, c.1 < Config.memSize ∧ c.2 ≠ Memory.unlisted

/-! ### Registers and the other fields -/

/-- `x[i]` (rule R6). -/
def State.reg (s : State) (i : Fin Config.nregs) : Byte := s.x[i.val]

/-- `x[i] <- v` (rule R6). -/
def State.setReg (s : State) (i : Fin Config.nregs) (v : Byte) : State := { s with x := s.x.set i.val v }

/-- `pc <- target`. -/
def State.setPc (s : State) (pc : PcWord) : State := { s with pc := pc }

/-- `fl <- v`. -/
def State.setFl (s : State) (fl : Byte) : State := { s with fl := fl }

/-- `ra <- v`. -/
def State.setRa (s : State) (ra : Byte) : State := { s with ra := ra }

/-- `run <- r`. -/
def State.setRun (s : State) (run : RunState) : State := { s with run := run }

/-- Replace the memory. -/
def State.setMem (s : State) (mem : Memory) : State := { s with mem := mem }

/-- `Emit(v)`: append a byte to the output trace (rules R7, R20, R26). -/
def State.emit (s : State) (v : Byte) : State := { s with out := s.out ++ [v] }

/-- `sp`, the other name of `x[7]` (rule R11). -/
def State.sp (s : State) : Byte := s.reg Config.spIndex

/-- `x[7] <- (x[7] - 1) mod 256` (rule R100). -/
def State.decSp (s : State) : State := s.setReg Config.spIndex (s.sp - 1)

/-- `x[7] <- (x[7] + 1) mod 256` (rule R101). -/
def State.incSp (s : State) : State := s.setReg Config.spIndex (s.sp + 1)

/-! ### Fatal errors -/

/-- The numeric code of an error kind, `err.kind` of rule R120. -/
def ErrorKind.code : ErrorKind → BitVec 3
  | .none => 0
  | .outOfBoundsAccess _ => 1
  | .decodeFailure => 2
  | .unsupportedALUOperation => 3
  | .protectedRegisterWrite => 4
  | .programLoadFailure => 5

/-- What a `raise` says besides the address of the failing instruction: the kind, the instruction byte if it was
fetched (else 0), and the diagnostic (rules R19, R127). -/
structure Cause where
  kind : ErrorKind
  ir : Byte
  info : BitVec 9
deriving DecidableEq, Repr

/-- `OutOfBoundsAccess(space = mem, index = addr)` (rules R7, R121). -/
def Cause.memBounds (ir : Byte) (addr : Nat) : Cause :=
  { kind := .outOfBoundsAccess .mem, ir := ir, info := BitVec.ofNat 9 addr }

/-- `OutOfBoundsAccess(space = reg, index = b)` (rules R7, R121). -/
def Cause.regBounds (ir b : Byte) : Cause :=
  { kind := .outOfBoundsAccess .reg, ir := ir, info := zext9 b }

/-- `DecodeFailure(byte = ir)` (rules R72, R122). -/
def Cause.undefinedByte (ir : Byte) : Cause :=
  { kind := .decodeFailure, ir := ir, info := zext9 ir }

/-- `ProtectedRegisterWrite(reg = i)` (rules R95, R125). -/
def Cause.protectedRegister (ir : Byte) (i : Fin Config.nregs) : Cause :=
  { kind := .protectedRegisterWrite, ir := ir, info := BitVec.ofNat 9 i.val }

/-- Error entry (rule R127) from the state `s` at the start of the failing cycle: the record is written, `run` becomes
`error`, and every other field keeps the value it had. -/
def State.raise (s : State) (c : Cause) : State :=
  { s with run := .error, err := { kind := c.kind, pc := s.pc, ir := c.ir, info := c.info } }

/-- The end of a cycle that began in `s`: its result, or, when a check raised, error entry from `s` itself, which
discards whatever the cycle had done (rules R7, R127). -/
def settle (s : State) : Except Cause State → Host.Outcome State Fault Refusal
  | .ok t => .next t
  | .error c => .next (s.raise c)

/-! ### Memory accesses of the engine and of the handlers -/

/-- `MemRead(addr, 1)` (rule R7): the range check first, then the byte. `ir` is what the error record would say. -/
def State.memRead (s : State) (ir : Byte) (addr : Nat) : Except Cause Byte :=
  if addr < Config.memSize then .ok (s.mem.read addr) else .error (Cause.memBounds ir addr)

/-- `MemWrite(addr, 1, v)` (rule R7). -/
def State.memWrite (s : State) (ir : Byte) (addr : Nat) (v : Byte) : Except Cause State :=
  if addr < Config.memSize then .ok (s.setMem (s.mem.write addr v)) else .error (Cause.memBounds ir addr)

/-- Push a byte: the stack pointer is decremented, then the byte is stored at it (rules R100, R106). The byte is given
as a function of the state after the decrement, because PUSH reads its register then. -/
def State.push (s : State) (ir : Byte) (v : State → Byte) : Except Cause State :=
  s.decSp.memWrite ir s.decSp.sp.toNat (v s.decSp)

/-! ### The advance -/

/-- Step 4 of the cycle (rules R70, R74): a handler that is not PC-setting is followed by the advance over the
instruction's bytes; after a PC-setting one the engine does not touch `pc`. -/
def State.finish (s : State) (op : Opcode) : State :=
  if op.pcSetting then s else s.setPc (s.pc + BitVec.ofNat 9 op.length)

end Sys2Proof.Machine
end

