-- ==== Sys2Proof/Machine/Flags.lean ====
section
/-! DEFINITION. The flags register `00000LGE` (spec/10_state.md rules R15 and R16; spec/41_alu.md rules R88 and R90). The
bit positions are the spec's decision D3 (notes/assumptions/1.md). -/

namespace Sys2Proof.Machine

/-- `0b00000 || L || G || E` (rule R90). -/
def packFlags (l g e : Bool) : Byte :=
  (if l then 4#8 else 0#8) ||| (if g then 2#8 else 0#8) ||| (if e then 1#8 else 0#8)

/-- `fl.E`, bit 0 (rule R15): the one flag that an instruction reads (rule R16). -/
def flagE (fl : Byte) : Bool := fl.getLsbD 0

/-- `fl.G`, bit 1 (rule R15). -/
def flagG (fl : Byte) : Bool := fl.getLsbD 1

/-- `fl.L`, bit 2 (rule R15). -/
def flagL (fl : Byte) : Bool := fl.getLsbD 2

/-- `COMPARE(p, q)` as the new flags register: unsigned order, exactly one flag set (rules R88, R90). -/
def compareFlags (p q : Byte) : Byte :=
  packFlags (decide (p.toNat < q.toNat)) (decide (q.toNat < p.toNat)) (decide (p.toNat = q.toNat))

end Sys2Proof.Machine
end

