-- ==== Sys2Proof/Machine/Alu.lean ====
section
/-! DEFINITION. The ALU (spec/41_alu.md rules R85 to R88): a pure function of an operation kind and two bytes. The
operation kind is a closed type, so `UnsupportedALUOperation` cannot be expressed (rule R91). -/

namespace Sys2Proof.Machine

/-- The operation kinds (rule R85). -/
inductive AluOp where
  /-- In the ALU, but no instruction selects it (rule R86). -/
  | add
  | mul
  | compare
deriving DecidableEq, Repr

/-- What the ALU answers: a byte, or the flags (rule R85). -/
inductive AluOut where
  | value (v : Byte)
  | flags (fl : Byte)
deriving DecidableEq, Repr

/-- `ADD(p, q) = (p + q) mod 256` (rule R86). -/
def aluAdd (p q : Byte) : Byte := BitVec.ofNat 8 (p.toNat + q.toNat)

/-- `MUL(p, q) = (p * q) mod 256` (rule R87). -/
def aluMul (p q : Byte) : Byte := BitVec.ofNat 8 (p.toNat * q.toNat)

/-- The ALU block (rule R85). -/
def alu (op : AluOp) (p q : Byte) : AluOut :=
  match op with
  | .add => .value (aluAdd p q)
  | .mul => .value (aluMul p q)
  | .compare => .flags (compareFlags p q)

/-- An ALU operation on two registers: a byte goes into the first one, flags replace the flags register (rules R89,
R90). -/
def State.applyAlu (s : State) (op : AluOp) (i j : Fin Config.nregs) : State :=
  match alu op (s.reg i) (s.reg j) with
  | .value v => s.setReg i v
  | .flags fl => s.setFl fl

end Sys2Proof.Machine
end

