-- ==== Sys2Proof/Machine/Operands.lean ====
section
/-! DEFINITION. The operand forms (spec/30_encoding.md rules R53 to R55). There are two: a register index byte and an
immediate byte. The immediate is used exactly as read (rule R55), so it needs no operation. -/

namespace Sys2Proof.Machine

/-- `RegIndex(b)` (rules R7, R54): the whole operand byte is the register number, and a byte above 7 raises
`OutOfBoundsAccess`; no bits are masked off. -/
def regIndex (ir b : Byte) : Except Cause (Fin Config.nregs) :=
  if h : b.toNat < Config.nregs then .ok ⟨b.toNat, h⟩ else .error (Cause.regBounds ir b)

end Sys2Proof.Machine
end

