-- ==== Sys2Proof/Machine/AluInstrs.lean ====
section
/-! DEFINITION. The ALU instructions MUL and CMP (spec/41_alu.md rules R89 and R90). -/

namespace Sys2Proof.Machine

/-- MUL Ra, Rb (rule R89). -/
def execMul (a b : Byte) (s : State) : Host.Outcome State Fault Refusal :=
  settle s do
    let i ← regIndex Opcode.mul.byte a
    let j ← regIndex Opcode.mul.byte b
    return (s.applyAlu .mul i j).finish .mul

/-- CMP Ra, Rb (rule R90). -/
def execCmp (a b : Byte) (s : State) : Host.Outcome State Fault Refusal :=
  settle s do
    let i ← regIndex Opcode.cmp.byte a
    let j ← regIndex Opcode.cmp.byte b
    return (s.applyAlu .compare i j).finish .cmp

end Sys2Proof.Machine
end

