-- ==== Sys2Proof/Machine/Control.lean ====
section
/-! DEFINITION. Control transfer: HLT, CALL, RET, JMP, JEQ and JNE (spec/44_control.md rules R105 to R110). All six are
PC-setting: the handler leaves the complete new `pc` (rule R74). -/

namespace Sys2Proof.Machine

/-- HLT (rule R105): `pc` stays at the HLT byte and nothing is emitted. -/
def execHlt (s : State) : Host.Outcome State Fault Refusal :=
  settle s (.ok ((s.setRun .halted).finish .hlt))

/-- CALL Ra (rule R106): the return address must be a memory address; the target is read after the push. -/
def execCall (a : Byte) (s : State) : Host.Outcome State Fault Refusal :=
  settle s do
    let i ← regIndex Opcode.call.byte a
    if s.pc.toNat + 2 > 255 then
      .error (Cause.memBounds Opcode.call.byte (s.pc.toNat + 2))
    else
      let t ← (s.setRa (BitVec.ofNat 8 (s.pc.toNat + 2))).push Opcode.call.byte fun u => u.ra
      return (t.setPc (zext9 (t.reg i))).finish .call

/-- RET (rule R107): the popped byte goes through the latch to `pc`. -/
def execRet (s : State) : Host.Outcome State Fault Refusal :=
  settle s do
    let v ← s.memRead Opcode.ret.byte s.sp.toNat
    let t := (s.setRa v).incSp
    return (t.setPc (zext9 t.ra)).finish .ret

/-- JMP Ra (rule R108). -/
def execJmp (a : Byte) (s : State) : Host.Outcome State Fault Refusal :=
  settle s do
    let i ← regIndex Opcode.jmp.byte a
    return (s.setPc (zext9 (s.reg i))).finish .jmp

/-- JEQ Ra (rule R109): the index is checked whether or not the branch is taken; not taken goes to `pc0 + 2`. -/
def execJeq (a : Byte) (s : State) : Host.Outcome State Fault Refusal :=
  settle s do
    let i ← regIndex Opcode.jeq.byte a
    return (s.setPc (if flagE s.fl then zext9 (s.reg i) else s.pc + 2)).finish .jeq

/-- JNE Ra (rule R110): taken when the equal flag is clear. -/
def execJne (a : Byte) (s : State) : Host.Outcome State Fault Refusal :=
  settle s do
    let i ← regIndex Opcode.jne.byte a
    return (s.setPc (if flagE s.fl then s.pc + 2 else zext9 (s.reg i))).finish .jne

end Sys2Proof.Machine
end

