-- ==== Sys2Proof/Machine/DataIo.lean ====
section
/-! DEFINITION. Data movement and output: LDI and PRN (spec/42_data_io.md rules R95 and R96). -/

namespace Sys2Proof.Machine

/-- LDI Ra, imm (rule R95). The stack pointer is protected from this instruction and from no other. -/
def execLdi (a imm : Byte) (s : State) : Host.Outcome State Fault Refusal :=
  settle s do
    let i ← regIndex Opcode.ldi.byte a
    if i = Config.spIndex then
      .error (Cause.protectedRegister Opcode.ldi.byte i)
    else
      return (s.setReg i imm).finish .ldi

/-- PRN Ra (rule R96). -/
def execPrn (a : Byte) (s : State) : Host.Outcome State Fault Refusal :=
  settle s do
    let i ← regIndex Opcode.prn.byte a
    return (s.emit (s.reg i)).finish .prn

end Sys2Proof.Machine
end

