-- ==== Sys2Proof/Machine/Stack.lean ====
section
/-! DEFINITION. The stack instructions PUSH and POP (spec/43_stack.md rules R100 and R101). The order of effects matters
exactly when the operand is `R7` (rule R151). -/

namespace Sys2Proof.Machine

/-- PUSH Ra (rule R100): the register is read after the decrement. -/
def execPush (a : Byte) (s : State) : Host.Outcome State Fault Refusal :=
  settle s do
    let i ← regIndex Opcode.push.byte a
    let t ← s.push Opcode.push.byte fun u => u.reg i
    return t.finish .push

/-- POP Ra (rule R101): the destination is written before the increment. -/
def execPop (a : Byte) (s : State) : Host.Outcome State Fault Refusal :=
  settle s do
    let i ← regIndex Opcode.pop.byte a
    let v ← s.memRead Opcode.pop.byte s.sp.toNat
    return (s.setReg i v).incSp.finish .pop

end Sys2Proof.Machine
end

