-- ==== Sys2Proof/Machine/Fetch.lean ====
section
/-! DEFINITION. Fetch, decode and operand fetch: the first part of the cycle (spec/40_engine_cycle.md rules R70 to R73),
in the order of checks of rule R76 (spec/60_exceptions.md rule R126, items 1 to 4). No state changes here. -/

namespace Sys2Proof.Machine

/-- Decode (rule R72): the dispatch table, or `DecodeFailure`. -/
def decodeByte (ir : Byte) : Except Cause Opcode :=
  match dispatch ir with
  | some op => .ok op
  | none => .error (Cause.undefinedByte ir)

/-- Fetch the operand byte number `k` (1 or 2) at `pc + k` if the instruction has that many operands (rule R73). An
operand the instruction does not have is not read; the byte 0 answered then is looked at by nobody. -/
def State.fetchOperand (s : State) (op : Opcode) (k : Nat) : Except Cause Byte :=
  if k ≤ op.operandCount then s.memRead op.byte (s.pc.toNat + k) else .ok 0

/-- The instruction at `pc` with its operand bytes, or the first check that fails (rules R70 to R73). -/
def State.fetchInstr (s : State) : Except Cause Instr := do
  let ir ← s.memRead 0 s.pc.toNat
  let op ← decodeByte ir
  let a ← s.fetchOperand op 1
  let b ← s.fetchOperand op 2
  return op.assemble a b

/-- The bytes from `pc` upward that memory has, as many as the longest instruction takes. -/
def State.bytesAtPc (s : State) : List Byte :=
  ((List.range (Config.maxOperands + 1)).filter fun k => s.pc.toNat + k < Config.memSize).map
    fun k => s.mem.read (s.pc.toNat + k)

end Sys2Proof.Machine
end

