-- ==== Sys2Proof/Machine/Engine.lean ====
section
/-! DEFINITION. One cycle of the engine (spec/40_engine_cycle.md rule R70) and what a terminal state does (rule R78). -/

namespace Sys2Proof.Machine

/-- One cycle: fetch, decode and operand fetch, then the handler. A check that fails before the handler enters the
error state from `s` (rule R127). -/
def cycle (s : State) : Host.Outcome State Fault Refusal :=
  match s.fetchInstr with
  | .ok i => exec i s
  | .error c => settle s (.error c)

/-- In `halted` and in `error` no fetch happens and no state changes (rule R78): the identity, one of the two forms that
rule offers a model (notes/assumptions/8.md). -/
def idle (s : State) : Host.Outcome State Fault Refusal := .next s

end Sys2Proof.Machine
end

