-- ==== Sys2Proof/Machine/Step.lean ====
section
/-! DEFINITION. The step of the machine (spec/40_engine_cycle.md rules R70, R77 and R78), and where a table word is placed
so that the next step runs it. -/

namespace Sys2Proof.Machine

/-- One step: a cycle while the run state is `running`, nothing in a terminal state. -/
def step (s : State) : Host.Outcome State Fault Refusal :=
  match s.run with
  | .running => cycle s
  | .halted => idle s
  | .error => idle s

/-- The state with a table word's bytes stored at `pc`, where the next cycle fetches; bytes above address 255 have no
cell. Only memory changes (notes/assumptions/10.md). -/
def State.withFetchWord (s : State) (nbits w : Nat) : State :=
  s.setMem (s.mem.writeBytes s.pc.toNat (tableWordBytes nbits w))

end Sys2Proof.Machine
end

