-- ==== Sys2Proof/Machine/Ports.lean ====
section
/-! DEFINITION. The abstract interfaces of the block (spec/10_state.md rules R24 to R28; spec/70_reset_and_hazards.md
rules R140 to R147): what the outside world does to the core before a run, and what it sees. Whether start has happened
is no field of the state tuple (rule R22); the interfaces keep it beside the state (notes/assumptions/10.md). -/

namespace Sys2Proof.Machine

/-- Where the block stands in the protocol of reset, load and start. -/
inductive Phase where
  /-- After reset and before start: the only phase in which the load port may be used (rule R25). -/
  | loading
  /-- After start: cycles execute while the run state is `running` (rule R28). -/
  | started
deriving DecidableEq, Repr

/-- The block as its interfaces see it: the phase, and the state of the core. -/
structure Block where
  phase : Phase
  core : State
deriving DecidableEq, Repr

/-- The block with a new memory, the phase and every other field of the core as before. -/
def Block.setMem (b : Block) (m : Memory) : Block := { b with core := b.core.setMem m }

/-- The block right after reset: the reset state, "not yet started" (rule R140). -/
def Block.reset : Block := { phase := .loading, core := State.reset }

/-- The reset port (rules R28, R140): the same block whatever the block before; nothing survives. -/
def portReset (_ : Block) : Block := Block.reset

/-- The contract of the load port (rule R25): after reset and before start, and not in a terminal state. -/
abbrev Block.mayLoad (b : Block) : Prop := b.phase = .loading ∧ b.core.run = .running

/-- The program-load port `load(addr, data)` (rule R25): one cell is written. A load after start or in a terminal state
is outside the contract and has no move (the spec's decision D21). -/
def portLoad (addr data : Byte) (b : Block) : Option Block :=
  if b.mayLoad then some (b.setMem (b.core.mem.write addr.toNat data)) else none

/-- The loader's use of the load port: the bytes go to consecutive addresses from `a` upward. -/
def loadFrom : Byte → List Byte → Block → Option Block
  | _, [], b => some b
  | a, v :: rest, b => (portLoad a v b).bind (loadFrom (a + 1) rest)

/-- What the loader does with an image (rule R146): byte `k` goes to `mem[k]`. An image of more than 256 bytes cannot be
loaded; that is a `ProgramLoadFailure` on the loader's side (rule R124). Outside the load port's contract no image has a
move, the empty one neither. -/
def loadImage (image : List Byte) (b : Block) : Option Block :=
  if b.mayLoad ∧ image.length ≤ Config.memSize then loadFrom 0 image b else none

/-- Start (rules R28, R147): the end of the load phase. -/
def portStart (b : Block) : Block := { b with phase := .started }

/-- A step of the block: no cycle before start (rules R18, R28), a step of the core after it. -/
def Block.step (b : Block) : Host.Outcome Block Fault Refusal :=
  match b.phase with
  | .loading => .next b
  | .started =>
    match Sys2Proof.Machine.step b.core with
    | .next s => .next { b with core := s }
    | .fault r => .fault r
    | .refused r => .refused r

/-- The launch state of an image (rule R147): reset, load, start. The host's core (Machine/Core.lean) runs from it. -/
def launch (image : List Byte) : Option State := (loadImage image Block.reset).map fun b => (portStart b).core

/-- The status port (rule R27): `run` and `err`, read only. -/
def portStatus (b : Block) : RunState × ErrorRecord := (b.core.run, b.core.err)

/-- The events on the output port between two states of one run (rule R26): the bytes the trace gained. -/
def emittedBetween (s t : State) : List Byte := t.out.drop s.out.length

end Sys2Proof.Machine
end

