-- ==== Sys2Proof/Safety.lean ====
section
/-! DEFINITION. What the spec promises of every state of a run, in the terms the statements use: the range of `pc` (spec
rule R13), the legal values of `fl` (rule R16), the canonical memory, and the agreement of `run` and `err` (rules R19,
R120, R121). -/

namespace Sys2Proof.Machine

/-- The values rule R16 calls reachable: all clear (only before the first CMP), or exactly one flag set. -/
abbrev flagsLegal (fl : Byte) : Prop := fl = 0 ∨ fl = 1 ∨ fl = 2 ∨ fl = 4

/-- The record is one that the tables of rules R120 and R121 allow the core to write, or the empty one. Kinds 3 and 5 are
never written (rules R123, R124). A memory cause has `info` = 256 and comes from the opcode fetch at 256 or from a
defined instruction at 254 or 255. -/
def ErrorRecord.inTable (e : ErrorRecord) : Bool :=
  match e.kind with
  | .none => decide (e = ErrorRecord.noError)
  | .outOfBoundsAccess .mem =>
    decide (e.info = 256#9) &&
      (decide (e.pc = 256#9) && decide (e.ir = 0#8) ||
        (decide (e.pc = 254#9) || decide (e.pc = 255#9)) && (dispatch e.ir).isSome)
  | .outOfBoundsAccess .reg =>
    decide (8 ≤ e.info.toNat) && decide (e.info.toNat ≤ 255) && (dispatch e.ir).isSome
  | .decodeFailure => decide (e.info = zext9 e.ir) && (dispatch e.ir).isNone
  | .unsupportedALUOperation => false
  | .protectedRegisterWrite => decide (e.info = 7#9) && decide (e.ir = Opcode.ldi.byte)
  | .programLoadFailure => false

/-- The invariant of the machine. -/
structure State.Inv (s : State) : Prop where
  /-- `pc` is 0 to 256 (rule R13). -/
  pcInRange : s.pc.toNat ≤ Config.memSize
  /-- `fl` is a value that rule R16 allows. -/
  flagsAreLegal : flagsLegal s.fl
  /-- The memory is in canonical form. -/
  memoryIsCanonical : s.mem.wf
  /-- The record is empty or one of the table's (rules R120, R121). -/
  recordInTable : s.err.inTable = true
  /-- The record says an error exactly in the error state (rule R120, code 0). -/
  recordIffError : s.run = .error ↔ s.err.kind ≠ .none
  /-- In the error state `pc` still addresses the failing instruction (rule R127). -/
  recordPc : s.run = .error → s.err.pc = s.pc

/-- The one successful final state (rule R78). -/
abbrev State.CleanHalt (s : State) : Prop := s.run = .halted

/-- A final state (rule R78). -/
abbrev State.Terminal (s : State) : Prop := s.run ≠ .running

end Sys2Proof.Machine
end

