-- ==== Sys2Proof/WellFormed.lean ====
section
/-! DEFINITION. When the operand bytes of an instruction are the ones its format allows (spec/30_encoding.md rules R53
and R54): a register index operand has bits 7:3 zero. An ill-formed instruction still decodes and runs: its handler
raises `OutOfBoundsAccess` (rule R54). The destination 7 of LDI is a valid index, so `LDI R7` is well formed; it is
the handler that refuses it with `ProtectedRegisterWrite` (rule R95). -/

namespace Sys2Proof

/-- A register operand byte names one of the eight registers (rule R54). -/
def validRegByte (b : Byte) : Bool := decide (b.toNat < Config.nregs)

/-- Every register operand is a valid index; the immediate of LDI is unrestricted (rule R55). -/
def Instr.wf : Instr → Bool
  | .hlt => true
  | .ret => true
  | .push a => validRegByte a
  | .pop a => validRegByte a
  | .prn a => validRegByte a
  | .call a => validRegByte a
  | .jmp a => validRegByte a
  | .jeq a => validRegByte a
  | .jne a => validRegByte a
  | .ldi a _ => validRegByte a
  | .mul a b => validRegByte a && validRegByte b
  | .cmp a b => validRegByte a && validRegByte b

end Sys2Proof
end

