-- ==== Sys2Proof/Certificates/Slice0/Obligations.lean ====
section
/-! DEFINITION. The statements for the provers. They state rules of spec/; where a clause rests on one of the spec's own
decisions (spec/92_eei_decisions.md) or on general knowledge, the docstring says so. A register operand is written
`regByte i` for a register number `i`, so that a statement covers exactly the operand bytes 0 to 7; the bytes 8 to 255
are `RegisterBytesAbove7Raise`. -/

open Sys2Proof Sys2Proof.Machine

/-! ### Encoding -/

/-- Spec 30_encoding.md, rule R63's procedure, both directions: a byte sequence decodes to an instruction (well formed or
not, with any operand bytes) and a rest exactly when it is that instruction's encoding followed by that rest. The byte
values are the spec's decision D1. -/
def Obligations.DecodeAndEncodeAgree : Prop :=
  ∀ (bytes : List Byte) (i : Instr) (rest : List Byte),
    decode bytes = .ok (i, rest) ↔ bytes = encode i ++ rest

/-- Two instruction lists laid out one instruction after the other as the same bytes are the same list: a program image
read from its first byte has one reading. -/
def Obligations.ProgramImageHasOneReading : Prop :=
  ∀ (p q : List Instr), p.flatMap encode = q.flatMap encode → p = q

/-- Twelve words, one of each row of the opcode map, bit by bit. Values: the spec's decision D1. -/
def Obligations.WrittenOutWordsDecode : Prop :=
  decode [0b00000001#8] = .ok (.hlt, []) ∧
  decode [0b00010001#8] = .ok (.ret, []) ∧
  decode [0b01000101#8, 0b00000001#8] = .ok (.push 1, []) ∧
  decode [0b01000110#8, 0b00000010#8] = .ok (.pop 2, []) ∧
  decode [0b01000111#8, 0b00000011#8] = .ok (.prn 3, []) ∧
  decode [0b01010000#8, 0b00000100#8] = .ok (.call 4, []) ∧
  decode [0b01010100#8, 0b00000101#8] = .ok (.jmp 5, []) ∧
  decode [0b01010101#8, 0b00000110#8] = .ok (.jeq 6, []) ∧
  decode [0b01010110#8, 0b00000111#8] = .ok (.jne 7, []) ∧
  decode [0b10000010#8, 0b00000001#8, 0b11110000#8] = .ok (.ldi 1 240, []) ∧
  decode [0b10100010#8, 0b00000010#8, 0b00000011#8] = .ok (.mul 2 3, []) ∧
  decode [0b10100111#8, 0b00000100#8, 0b00000111#8] = .ok (.cmp 4 7, [])

/-- The closed set: a byte has a handler exactly when it is that handler's byte; 244 of the 256 bytes have none; 0x00,
0x83, 0x84 and 0xA0 are among them. -/
def Obligations.TwelveBytesAreDefined : Prop :=
  (∀ (ir : Byte) (op : Opcode), dispatch ir = some op ↔ ir = op.byte) ∧
  ((List.range 256).filter fun n => (dispatch (BitVec.ofNat 8 n)).isNone).length = 244 ∧
  ∀ ir ∈ [0x00#8, 0x83#8, 0x84#8, 0xA0#8], dispatch ir = none

/-- Rule R52: the first byte's top two bits announce the length. -/
def Obligations.TopTwoBitsGiveTheLength : Prop :=
  (∀ (ir : Byte) (more : List Byte) (i : Instr) (rest : List Byte),
    decode (ir :: more) = .ok (i, rest) →
      (ir :: more).length = (1 + (ir.extractLsb' 6 2).toNat) + rest.length ∧
      i.operandBytes.length = (ir.extractLsb' 6 2).toNat ∧
      1 ≤ (encode i).length ∧ (encode i).length ≤ 3) ∧
  ∀ (ir : Byte) (more : List Byte), ir.extractLsb' 6 2 = 3#2 → decode (ir :: more) = .error (.undefinedByte ir)

/-- Rule R57's constraints (a) to (e) hold of the adopted byte values (the spec's decision D1); bit 4 is set for the
PC-setting instructions but HLT. -/
def Obligations.AdoptedBytesMeetTheConstraints : Prop :=
  (∀ op op' : Opcode, op.byte = op'.byte → op = op') ∧
  ∀ op : Opcode,
    (fieldAA op.byte ≠ 3) ∧
    (fieldB op.byte = true ↔ op = .mul ∨ op = .cmp) ∧
    (fieldC op.byte = true ↔ op.pcSetting = true ∧ op ≠ .hlt) ∧
    (fieldAA op.byte = 0 ↔ op = .hlt ∨ op = .ret) ∧
    (fieldAA op.byte = 2 ↔ op = .ldi ∨ op = .mul ∨ op = .cmp)

/-! ### The cycle -/

/-- When the bytes at `pc` decode to an instruction, a step of a running machine is that instruction's meaning, with
nothing around it: each meaning holds its own advance. -/
def Obligations.StepRunsTheDecodedInstruction : Prop :=
  ∀ (s : State) (i : Instr) (rest : List Byte),
    s.run = .running → decode s.bytesAtPc = .ok (i, rest) → step s = exec i s

/-- The checks of a cycle before the handler, in the order of rule R126 items 1 to 4 (the spec's decision D18), with the
record each leaves; after them the handler runs. -/
def Obligations.CycleChecksInOrder : Prop :=
  ∀ s : State, s.run = .running →
    step s =
      if 256 ≤ s.pc.toNat then
        .next { s with run := .error, err := ⟨.outOfBoundsAccess .mem, s.pc, 0, s.pc⟩ }
      else
        match dispatch (s.mem.read s.pc.toNat) with
        | none =>
          .next { s with
            run := .error
            err := ⟨.decodeFailure, s.pc, s.mem.read s.pc.toNat, zext9 (s.mem.read s.pc.toNat)⟩ }
        | some op =>
          if 256 < s.pc.toNat + 1 + op.operandCount then
            .next { s with run := .error, err := ⟨.outOfBoundsAccess .mem, s.pc, op.byte, 256⟩ }
          else
            exec (op.assemble (s.mem.read (s.pc.toNat + 1)) (s.mem.read (s.pc.toNat + 2))) s

/-- When the fetched byte is not one of the twelve, and only then, the step is `DecodeFailure` with the byte and its
address (rule R122), and nothing else changes. That `pc`, `fl`, `ra` and `out` are kept is the spec's decision D16
(notes/assumptions/3.md). -/
def Obligations.UndefinedByteIsDecodeFailure : Prop :=
  (∀ s : State, s.run = .running → s.pc.toNat < 256 → (∀ op : Opcode, s.mem.read s.pc.toNat ≠ op.byte) →
    step s = .next { s with
      run := .error
      err := ⟨.decodeFailure, s.pc, s.mem.read s.pc.toNat, zext9 (s.mem.read s.pc.toNat)⟩ }) ∧
  ∀ s t : State, s.run = .running → step s = .next t → t.run = .error → t.err.kind = .decodeFailure →
    s.pc.toNat < 256 ∧ ∀ op : Opcode, s.mem.read s.pc.toNat ≠ op.byte

/-- Rule R78: from a terminal state no number of steps changes anything. -/
def Obligations.TerminalStatesNeverChange : Prop :=
  ∀ (s : State) (k : Nat), s.run = .halted ∨ s.run = .error → Host.Core.run Sys2Proof.core k s = .next s

/-- A step of any state answers a next state: no refusal, no fault, no missing case. -/
def Obligations.EveryStepAnswersNext : Prop := ∀ s : State, ∃ t : State, step s = .next t

/-- Rule R18: reset is `running`; `halted` is entered by HLT alone; `error` is entered exactly by a `raise`; in neither
does a step change any state. -/
def Obligations.RunStateChangesOnlyAsTabled : Prop :=
  State.reset.run = .running ∧
  ∀ s t : State, step s = .next t →
    (s.run = .running →
      (t.run = .halted ↔ s.pc.toNat < 256 ∧ s.mem.read s.pc.toNat = Opcode.hlt.byte) ∧
      (t.run = .error ↔ ∃ c : Cause, t = s.raise c)) ∧
    (s.run ≠ .running → t = s)

/-- Placing a table word where the next fetch reads runs the instruction the decoder reads from it (the model's own
placement, notes/assumptions/10.md), when `pc` leaves room for the longest instruction. -/
def Obligations.PlacedWordIsTheOneRun : Prop :=
  ∀ (s : State) (nbits w : Nat) (i : Instr),
    s.run = .running → s.pc.toNat ≤ 253 → decodeTableWord nbits w = some i →
      step (s.withFetchWord nbits w) = exec i (s.withFetchWord nbits w)

/-! ### The ALU -/

/-- Rule R87: the low 8 bits of the product, commutative, and the same for the signed reading. -/
def Obligations.AluMulIsTheLowByteOfTheProduct : Prop :=
  (∀ p q : Byte, ∃ v : Byte,
    alu .mul p q = .value v ∧ v.toNat = p.toNat * q.toNat % 256 ∧ alu .mul q p = .value v ∧
    v = BitVec.ofInt 8 (p.toInt * q.toInt)) ∧
  (∀ p : Byte, alu .mul p 0 = .value 0 ∧ alu .mul p 1 = .value p) ∧
  alu .mul 16 16 = .value 0 ∧ alu .mul 255 255 = .value 1 ∧ alu .mul 128 2 = .value 0 ∧
  alu .mul 200 3 = .value 88 ∧ alu .mul 9 10 = .value 90

/-- Rule R88: exactly one flag, by unsigned order. -/
def Obligations.AluCompareSetsExactlyOneFlag : Prop :=
  (∀ p q : Byte, ∃ fl : Byte,
    alu .compare p q = .flags fl ∧
    (flagL fl = true ↔ p.toNat < q.toNat) ∧ (flagG fl = true ↔ q.toNat < p.toNat) ∧ (flagE fl = true ↔ p = q) ∧
    (fl = packFlags true false false ∨ fl = packFlags false true false ∨ fl = packFlags false false true)) ∧
  alu .compare 255 1 = .flags (packFlags false true false) ∧
  ∀ p : Byte, alu .compare p p = .flags (packFlags false false true)

/-- `ADD` is the sum modulo 256. That no instruction selects it is the spec's decision D2. -/
def Obligations.AluAddIsTheSumModulo256 : Prop :=
  ∀ p q : Byte, ∃ v : Byte, alu .add p q = .value v ∧ v.toNat = (p.toNat + q.toNat) % 256 ∧ alu .add q p = .value v

/-! ### Memory -/

/-- Rule R30: the two operations on a valid address, the fatal error on an invalid one, and a read after a write. -/
def Obligations.MemoryReadsWhatWasWritten : Prop :=
  ∀ (s : State) (ir v : Byte) (a : Nat),
    (a < 256 →
      s.memRead ir a = .ok (s.mem.read a) ∧
      ∃ t : State, s.memWrite ir a v = .ok t ∧ t = { s with mem := t.mem } ∧
        t.memRead ir a = .ok v ∧ ∀ b : Nat, b ≠ a → t.mem.read b = s.mem.read b) ∧
    (256 ≤ a →
      s.memRead ir a = .error ⟨.outOfBoundsAccess .mem, ir, BitVec.ofNat 9 a⟩ ∧
      s.memWrite ir a v = .error ⟨.outOfBoundsAccess .mem, ir, BitVec.ofNat 9 a⟩)

/-- Equal memories are equal data (the model's representation, notes/assumptions/9.md): two memories in canonical form
that read alike at every address are the same list. -/
def Obligations.CanonicalMemoryIsUnique : Prop :=
  ∀ m m' : Memory, m.wf → m'.wf → (∀ a : Nat, a < 256 → m.read a = m'.read a) → m = m'

/-! ### Each instruction's own effect, the whole next state -/

/-- HLT: only `run` changes. That `pc` stays and nothing is emitted is the spec's decision D9. -/
def Obligations.HltHalts : Prop := ∀ s : State, exec .hlt s = .next { s with run := .halted }

/-- LDI to R0 to R6. -/
def Obligations.LdiLoadsTheImmediate : Prop :=
  ∀ (i : Fin 8) (v : Byte) (s : State), i ≠ 7 →
    exec (.ldi (regByte i) v) s = .next { s with x := s.x.set i.val v, pc := s.pc + 3 }

/-- PRN of any register, the stack pointer too. -/
def Obligations.PrnEmitsTheRegister : Prop :=
  ∀ (i : Fin 8) (s : State),
    exec (.prn (regByte i)) s = .next { s with out := s.out ++ [s.x[i.val]], pc := s.pc + 2 }

/-- MUL, any registers, the same one twice too; R7 as an operand is the spec's decision D10. -/
def Obligations.MulMultipliesModulo256 : Prop :=
  ∀ (i j : Fin 8) (s : State),
    exec (.mul (regByte i) (regByte j)) s =
      .next { s with
        x := s.x.set i.val (BitVec.ofNat 8 (s.x[i.val].toNat * s.x[j.val].toNat % 256))
        pc := s.pc + 3 }

/-- CMP replaces the whole flags register (the spec's decision D4; bit positions D3). -/
def Obligations.CmpReplacesTheFlags : Prop :=
  ∀ (i j : Fin 8) (s : State),
    exec (.cmp (regByte i) (regByte j)) s =
      .next { s with
        fl :=
          if s.x[i.val].toNat < s.x[j.val].toNat then 0b00000100#8
          else if s.x[j.val].toNat < s.x[i.val].toNat then 0b00000010#8
          else 0b00000001#8
        pc := s.pc + 3 }

/-- PUSH: the decremented stack pointer is the address, and it is also the value when the operand is R7 (the spec's
decision D11); the decrement wraps (D12). -/
def Obligations.PushStoresBelowTheStackPointer : Prop :=
  ∀ (i : Fin 8) (s : State),
    exec (.push (regByte i)) s =
      .next { s with
        x := s.x.set 7 (s.x[7] - 1)
        mem := s.mem.write (s.x[7] - 1).toNat (if i = 7 then s.x[7] - 1 else s.x[i.val])
        pc := s.pc + 2 }

/-- POP: the register gets the byte at the stack pointer, which then moves up; for R7 the popped byte plus one (the
spec's decision D11); the increment wraps (D12). -/
def Obligations.PopLoadsFromTheStackPointer : Prop :=
  ∀ (i : Fin 8) (s : State),
    exec (.pop (regByte i)) s =
      .next { s with
        x :=
          if i = 7 then s.x.set 7 (s.mem.read s.x[7].toNat + 1)
          else (s.x.set i.val (s.mem.read s.x[7].toNat)).set 7 (s.x[7] + 1)
        pc := s.pc + 2 }

/-- CALL, where the return address is a memory address: it is pushed and latched, and the target is read after the push
(the spec's decision D11 for R7; the separate latch is D13). -/
def Obligations.CallPushesTheReturnAddress : Prop :=
  ∀ (i : Fin 8) (s : State), s.pc.toNat + 2 ≤ 255 →
    exec (.call (regByte i)) s =
      .next { s with
        ra := BitVec.ofNat 8 (s.pc.toNat + 2)
        x := s.x.set 7 (s.x[7] - 1)
        mem := s.mem.write (s.x[7] - 1).toNat (BitVec.ofNat 8 (s.pc.toNat + 2))
        pc := zext9 (if i = 7 then s.x[7] - 1 else s.x[i.val]) }

/-- RET: the byte at the stack pointer goes to the latch and to `pc`. -/
def Obligations.RetPopsThePc : Prop :=
  ∀ s : State,
    exec .ret s =
      .next { s with
        ra := s.mem.read s.x[7].toNat
        x := s.x.set 7 (s.x[7] + 1)
        pc := zext9 (s.mem.read s.x[7].toNat) }

/-- JMP. -/
def Obligations.JmpSetsThePc : Prop :=
  ∀ (i : Fin 8) (s : State), exec (.jmp (regByte i)) s = .next { s with pc := zext9 s.x[i.val] }

/-- JEQ: taken exactly when bit 0 of `fl` is set; where it goes when not taken is the spec's decision D8. -/
def Obligations.JeqBranchesWhenEqual : Prop :=
  ∀ (i : Fin 8) (s : State),
    exec (.jeq (regByte i)) s =
      .next { s with pc := if s.fl.getLsbD 0 = true then zext9 s.x[i.val] else s.pc + 2 }

/-- JNE: taken exactly when bit 0 of `fl` is clear; where it goes when not taken is the spec's decision D8. -/
def Obligations.JneBranchesWhenNotEqual : Prop :=
  ∀ (i : Fin 8) (s : State),
    exec (.jne (regByte i)) s =
      .next { s with pc := if s.fl.getLsbD 0 = false then zext9 s.x[i.val] else s.pc + 2 }

/-! ### Where an instruction raises -/

/-- A register operand byte above 7 raises `OutOfBoundsAccess(reg, byte)`, the first operand's check before the second's,
JEQ and JNE whether taken or not, LDI before its protection, CALL before its return address; nothing else changes. The
whole byte as the index is the spec's decision D15, the order D18, the record D19. -/
def Obligations.RegisterBytesAbove7Raise : Prop :=
  (∀ (a b : Byte) (s : State), 7 < a.toNat →
    ∀ i ∈ [Instr.push a, .pop a, .prn a, .call a, .jmp a, .jeq a, .jne a, .ldi a b, .mul a b, .cmp a b],
      exec i s =
        .next { s with run := .error, err := ⟨.outOfBoundsAccess .reg, s.pc, i.opcode.byte, zext9 a⟩ }) ∧
  ∀ (j : Fin 8) (b : Byte) (s : State), 7 < b.toNat →
    ∀ i ∈ [Instr.mul (regByte j) b, .cmp (regByte j) b],
      exec i s =
        .next { s with run := .error, err := ⟨.outOfBoundsAccess .reg, s.pc, i.opcode.byte, zext9 b⟩ }

/-- Rule R125: LDI to register 7 raises `ProtectedRegisterWrite` with `info` 7, and no other instruction does. -/
def Obligations.OnlyLdiToR7IsProtected : Prop :=
  (∀ (v : Byte) (s : State),
    exec (.ldi (regByte 7) v) s =
      .next { s with run := .error, err := ⟨.protectedRegisterWrite, s.pc, Opcode.ldi.byte, 7⟩ }) ∧
  ∀ s t : State, s.run = .running → step s = .next t → t.run = .error → t.err.kind = .protectedRegisterWrite →
    t.err.info = 7 ∧ ∃ (v : Byte) (rest : List Byte), decode s.bytesAtPc = .ok (.ldi (regByte 7) v, rest)

/-- CALL whose return address is no memory address pushes nothing and raises (the spec's decision D14). -/
def Obligations.CallAtTheTopRaises : Prop :=
  ∀ (i : Fin 8) (s : State), 255 < s.pc.toNat + 2 →
    exec (.call (regByte i)) s =
      .next { s with
        run := .error
        err := ⟨.outOfBoundsAccess .mem, s.pc, Opcode.call.byte, BitVec.ofNat 9 (s.pc.toNat + 2)⟩ }

/-! ### Frames -/

/-- Which registers an instruction may change: LDI, MUL and POP their destination, and PUSH, POP, CALL and RET the stack
pointer; every other register keeps its value, and HLT, PRN, CMP, JMP, JEQ and JNE change none. -/
def Obligations.RegistersKeptByEachInstruction : Prop :=
  ∀ (i : Instr) (s t : State) (r : Fin 8), exec i s = .next t →
    (match i with
      | .ldi a _ | .mul a _ => r.val ≠ a.toNat
      | .pop a => r.val ≠ a.toNat ∧ r ≠ 7
      | .push _ | .call _ | .ret => r ≠ 7
      | .hlt | .prn _ | .cmp _ _ | .jmp _ | .jeq _ | .jne _ => True) →
    t.x[r.val] = s.x[r.val]

/-- Memory: PUSH and CALL may change the one byte at the decremented stack pointer, the address their meaning stores to;
every other instruction changes no byte. -/
def Obligations.MemoryKeptByEachInstruction : Prop :=
  ∀ (i : Instr) (s t : State) (a : Nat), exec i s = .next t →
    (match i with
      | .push _ | .call _ => a ≠ s.decSp.sp.toNat
      | .hlt | .ret | .pop _ | .prn _ | .jmp _ | .jeq _ | .jne _ | .ldi _ _ | .mul _ _ | .cmp _ _ => True) →
    t.mem.read a = s.mem.read a

/-- The other fields: only CMP changes `fl`, only PRN changes `out`, only CALL and RET change the latch, and an
instruction that does not raise and is not HLT leaves `run` and `err`; HLT leaves `err`. -/
def Obligations.OtherFieldsKeptByEachInstruction : Prop :=
  ∀ (i : Instr) (s t : State), exec i s = .next t →
    (i.opcode ≠ .cmp → t.fl = s.fl) ∧
    (i.opcode ≠ .prn → t.out = s.out) ∧
    (i.opcode ≠ .call → i.opcode ≠ .ret → t.ra = s.ra) ∧
    ((t.err = s.err ∧ (i.opcode ≠ .hlt → t.run = s.run)) ∨ ∃ c : Cause, t = s.raise c)

/-- The advance: each of the six instructions that are not PC-setting goes to the byte after it, without wrapping, in a
step that does not raise; `pc` may become 256 (the spec's decision D6). -/
def Obligations.AdvanceIsTheInstructionLength : Prop :=
  ∀ (s t : State) (i : Instr) (rest : List Byte),
    s.run = .running → decode s.bytesAtPc = .ok (i, rest) →
    i.opcode ∈ [Opcode.ldi, .mul, .cmp, .prn, .push, .pop] →
    step s = .next t → t.run ≠ .error →
      t.pc.toNat = s.pc.toNat + i.operandBytes.length + 1 ∧ t.pc.toNat ≤ 256

/-! ### Errors -/

/-- Precision: a step that ends in the error state has changed `run` and `err` only, and the record holds the address of
the failing instruction and one of the causes the tables allow (the spec's decisions D16, D19). -/
def Obligations.ErrorsArePrecise : Prop :=
  ∀ s t : State, s.run = .running → step s = .next t → t.run = .error → s.pc.toNat ≤ 256 →
    t = { s with run := .error, err := t.err } ∧ t.err.pc = s.pc ∧ t.err.inTable = true ∧ t.err.kind ≠ .none ∧
    (t.err.ir = if s.pc.toNat < 256 then s.mem.read s.pc.toNat else 0)

/-- Rule R128: the error state is final, `err` is written at most once, and only reset leaves it and clears it. -/
def Obligations.ErrorIsFinalAndRecordedOnce : Prop :=
  (∀ (s t : State) (k m : Nat), Host.Core.run Sys2Proof.core k s = .next t → t.run = .error →
    Host.Core.run Sys2Proof.core (k + m) s = .next t) ∧
  (∀ s t : State, step s = .next t → t.err = s.err ∨ (s.run = .running ∧ t.run = .error)) ∧
  ∀ b : Block, (portReset b).core.run = .running ∧ (portReset b).core.err = ⟨.none, 0, 0, 0⟩

/-! ### Reset, launch and the register file -/

/-- The reset table of rule R140, whatever the state before. The values of `fl`, `ra` and `err` are the spec's decisions
D5, D13 and D19. -/
def Obligations.ResetLeavesTheTable : Prop :=
  ∀ b : Block,
    (∀ i : Fin 8, (portReset b).core.x[i.val] = if i = 7 then 0xF4 else 0) ∧
    (portReset b).core.pc = 0 ∧ (portReset b).core.fl = 0 ∧ (portReset b).core.ra = 0 ∧ (portReset b).core.run = .running ∧
    (portReset b).core.err.kind.code = 0 ∧ (portReset b).core.out = [] ∧
    ∀ a : Nat, a < 256 → (portReset b).core.mem.read a = 0

/-- The stack pointer is register 7, one storage with two names, 0xF4 after reset, and `mem[sp]` is the byte pushed last
(rule R11). That a PUSH of register 7 itself pushes the decremented value is the spec's decision D11
(notes/assumptions/5.md). -/
def Obligations.StackPointerIsRegister7 : Prop :=
  State.reset.x[7] = 0xF4#8 ∧
  (∀ s : State, s.sp = s.x[7]) ∧
  (∀ (s : State) (v : Byte), (s.setReg 7 v).sp = v) ∧
  (∀ s : State, s.decSp.x[7] = s.sp - 1 ∧ s.incSp.x[7] = s.sp + 1) ∧
  ∀ (i : Fin 8) (s : State), ∃ t : State, exec (.push (regByte i)) s = .next t ∧
    t.mem.read t.sp.toNat = s.decSp.x[i.val]

/-- Rule R147: the launch state is the reset state with the memory replaced by the image padded with zeros. -/
def Obligations.LaunchIsResetWithTheImage : Prop :=
  ∀ image : List Byte, image.length ≤ 256 →
    ∃ t : State, launch image = some t ∧ t = { State.reset with mem := t.mem } ∧ t.mem.wf ∧
      ∀ a : Nat, a < 256 → t.mem.read a = image.getD a 0

/-- The load port (rule R25): between reset and start a load writes its one cell and changes nothing else; after start, or
in a terminal state, neither a load nor an image has a move. That there is no move is the spec's decision D21
(notes/assumptions/10.md). -/
def Obligations.LoadOnlyBetweenResetAndStart : Prop :=
  ∀ b : Block,
    (b.phase = .loading → b.core.run = .running → ∀ addr data : Byte, ∃ c : Block,
      portLoad addr data b = some c ∧ c = { b with core := { b.core with mem := c.core.mem } } ∧
      (b.core.mem.wf → c.core.mem.wf) ∧
      ∀ a : Nat, a < 256 → c.core.mem.read a = if a = addr.toNat then data else b.core.mem.read a) ∧
    (b.phase = .started ∨ b.core.run ≠ .running →
      (∀ addr data : Byte, portLoad addr data b = none) ∧ ∀ image : List Byte, loadImage image b = none)

/-- Start (rule R28): no cycle runs before it, it keeps the core's state, and after it the block steps as the core does.
The phase kept beside the state tuple is the model's own (notes/assumptions/10.md). -/
def Obligations.CyclesRunOnlyAfterStart : Prop :=
  (∀ b : Block, (portReset b).phase = .loading) ∧
  (∀ b : Block, b.phase = .loading → b.step = .next b) ∧
  ∀ (b : Block) (k : Nat), ∃ t : State,
    Host.Core.run Sys2Proof.core k b.core = .next t ∧
    Host.Core.run
      { State := Block, Fault := Fault, Refusal := Refusal, step := Block.step, reset := Block.reset } k (portStart b) =
        .next { phase := .started, core := t }

/-! ### Properties over several instructions -/

/-- PUSH then POP on the same register gives every register back, and leaves the pushed byte in the cell below the old
stack pointer. For R7 this rests on the spec's decision D11. -/
def Obligations.PushThenPopRestores : Prop :=
  ∀ (i : Fin 8) (s : State), ∃ t u : State,
    exec (.push (regByte i)) s = .next t ∧ exec (.pop (regByte i)) t = .next u ∧
    u.x = s.x ∧ u.mem.read (s.x[7] - 1).toNat = (if i = 7 then s.x[7] - 1 else s.x[i.val])

/-- Last in, first out: after PUSH Ra, PUSH Rb, POP Rc, POP Rd the registers c and d hold the old b and a. -/
def Obligations.StackIsLastInFirstOut : Prop :=
  ∀ (a b c d : Fin 8) (s : State), a ≠ 7 → b ≠ 7 → c ≠ 7 → d ≠ 7 → c ≠ d →
    ∃ t u v w : State,
      exec (.push (regByte a)) s = .next t ∧ exec (.push (regByte b)) t = .next u ∧
      exec (.pop (regByte c)) u = .next v ∧ exec (.pop (regByte d)) v = .next w ∧
      w.x[c.val] = s.x[b.val] ∧ w.x[d.val] = s.x[a.val] ∧ w.x[7] = s.x[7]

/-- CALL then RET resumes after the CALL and its operand, from whatever state the subroutine leaves, provided the stack
pointer and the cell it addresses are as CALL left them. -/
def Obligations.RetResumesAfterTheCall : Prop :=
  ∀ (i : Fin 8) (s t u : State), s.pc.toNat + 2 ≤ 255 → exec (.call (regByte i)) s = .next t →
    u.x[7] = t.x[7] → u.mem.read u.x[7].toNat = t.mem.read t.x[7].toNat →
    ∃ v : State, exec .ret u = .next v ∧ v.pc = s.pc + 2 ∧ v.x[7] = s.x[7] ∧
      ∀ r : Fin 8, r ≠ 7 → v.x[r.val] = u.x[r.val]

/-- LDI of a value into R0 to R6 and PRN of the register emits exactly that value (for R7 the protection wins, conflict
C3). -/
def Obligations.LdiThenPrnEmitsTheValue : Prop :=
  ∀ (i : Fin 8) (v : Byte) (s : State), i ≠ 7 →
    ∃ t u : State, exec (.ldi (regByte i) v) s = .next t ∧ exec (.prn (regByte i)) t = .next u ∧
      u.out = s.out ++ [v]

/-! ### What never influences anything -/

/-- The return-address latch is unobservable: two runs that start alike but for it stay alike but for it, for any number
of steps (rule R17; that it is a separate latch is the spec's decision D13). -/
def Obligations.ReturnLatchIsUnobservable : Prop :=
  ∀ (k : Nat) (s : State) (r : Byte), ∃ (t : State) (r' : Byte),
    Host.Core.run Sys2Proof.core k s = .next t ∧
    Host.Core.run Sys2Proof.core k { s with ra := r } = .next { t with ra := r' }

/-- No instruction reads the output trace: more bytes at its front change nothing but stay there, for any number of
steps. -/
def Obligations.OutputIsNeverRead : Prop :=
  ∀ (k : Nat) (s : State) (before : List Byte), ∃ t : State,
    Host.Core.run Sys2Proof.core k s = .next t ∧
    Host.Core.run Sys2Proof.core k { s with out := before ++ s.out } = .next { t with out := before ++ t.out }

/-- No instruction reads any bit of `fl` but the equal flag: two states that differ in the other bits only have next
states that differ in `fl` only. -/
def Obligations.OnlyTheEqualFlagIsRead : Prop :=
  ∀ (i : Instr) (s : State) (fl : Byte), fl.getLsbD 0 = s.fl.getLsbD 0 →
    ∃ (t : State) (fl' : Byte), exec i s = .next t ∧ exec i { s with fl := fl } = .next { t with fl := fl' }

/-! ### The invariant -/

/-- The invariant holds at reset. -/
def Obligations.InvariantHoldsAtReset : Prop := State.reset.Inv

/-- Every step keeps the invariant, from every state that meets it: `pc` in 0 to 256, `fl` clear or with exactly one flag
set, the memory in canonical form, and `err` empty unless the machine is in the error state, where it is a record the
tables of rules R120 and R121 allow, with `pc` still at the failing instruction. It rests on the spec's decisions D4,
D6, D16 and D19. -/
def Obligations.InvariantKeptByEveryStep : Prop :=
  ∀ s t : State, s.Inv → step s = .next t → t.Inv
end

