-- ==== Sys2Proof/Laws/Memory.lean ====
section
/-! SUPPORT. The laws of memory: what a read gives after a write, and that every operation keeps the canonical form. -/

namespace Sys2Proof.Machine

@[simp] theorem Memory.read_nil (a : Nat) : Memory.read [] a = Memory.unlisted := rfl

@[simp] theorem Memory.read_cons (c : Host.Cell) (m : Memory) (a : Nat) :
    Memory.read (c :: m) a = if c.1 = a then c.2 else Memory.read m a := by
  cases c; rfl

theorem Memory.read_of_not_listed {m : Memory} {a : Nat} (h : ∀ c ∈ m, c.1 ≠ a) :
    m.read a = Memory.unlisted := by
  induction m with
  | nil => rfl
  | cons c m ih =>
    rw [Memory.read_cons, if_neg (h c (by simp)), ih fun d hd => h d (by simp [hd])]

theorem Memory.read_erase (m : Memory) (a b : Nat) :
    (m.erase a).read b = if a = b then Memory.unlisted else m.read b := by
  induction m with
  | nil => simp [Memory.erase]
  | cons c m ih =>
    simp only [Memory.erase] at ih ⊢
    by_cases hc : c.1 = a
    · rw [List.filter_cons_of_neg (by simp [hc]), ih]
      split
      · rfl
      · next h => rw [Memory.read_cons, if_neg (by omega)]
    · rw [List.filter_cons_of_pos (by simp [hc]), Memory.read_cons, Memory.read_cons, ih]
      split_ifs <;> first | rfl | omega

theorem Memory.read_insert (m : Memory) (a b : Nat) (v : Byte) :
    (m.insert a v).read b = if a = b then v else m.read b := by
  induction m with
  | nil => simp [Memory.insert]
  | cons c m ih =>
    obtain ⟨k, w⟩ := c
    simp only [Memory.insert]
    split_ifs <;> simp only [Memory.read_cons, ih] <;> split_ifs <;> first | rfl | omega

/-- A read after a write (rule R30): the written byte at the written cell, the old byte elsewhere. -/
theorem Memory.read_write (m : Memory) (a b : Nat) (v : Byte) :
    (m.write a v).read b = if a = b then v else m.read b := by
  unfold Memory.write
  split
  · next h => rw [Memory.read_erase, h]
  · exact Memory.read_insert m a b v

@[simp] theorem Memory.read_write_self (m : Memory) (a : Nat) (v : Byte) : (m.write a v).read a = v := by
  simp [Memory.read_write]

theorem Memory.read_write_of_ne (m : Memory) {a b : Nat} (h : a ≠ b) (v : Byte) :
    (m.write a v).read b = m.read b := by
  simp [Memory.read_write, h]

/-! ### The canonical form -/

theorem Memory.wf_nil : Memory.wf [] := by simp [Memory.wf]

theorem Memory.wf_erase {m : Memory} (h : m.wf) (a : Nat) : (m.erase a).wf :=
  ⟨h.1.filter _, fun c hc => h.2 c (List.mem_of_mem_filter hc)⟩

theorem Memory.mem_insert {m : Memory} {a : Nat} {v : Byte} {c : Host.Cell} (h : c ∈ m.insert a v) :
    c = (a, v) ∨ c ∈ m := by
  induction m with
  | nil => simpa [Memory.insert] using h
  | cons d m ih =>
    simp only [Memory.insert] at h
    split_ifs at h
    · simpa using h
    · rcases List.mem_cons.1 h with h | h
      · exact .inl h
      · exact .inr (List.mem_cons_of_mem _ h)
    · rcases List.mem_cons.1 h with h | h
      · exact .inr (by simp [h])
      · rcases ih h with h | h
        · exact .inl h
        · exact .inr (List.mem_cons_of_mem _ h)

theorem Memory.wf_insert {m : Memory} (h : m.wf) {a : Nat} (ha : a < Config.memSize) {v : Byte}
    (hv : v ≠ Memory.unlisted) : (m.insert a v).wf := by
  refine ⟨?_, fun c hc => ?_⟩
  · obtain ⟨hs, -⟩ := h
    induction m with
    | nil => simp [Memory.insert]
    | cons d m ih =>
      obtain ⟨hd, hm⟩ := List.pairwise_cons.1 hs
      simp only [Memory.insert]
      split_ifs with h1 h2
      · refine List.pairwise_cons.2 ⟨fun c hc => ?_, hs⟩
        rcases List.mem_cons.1 hc with rfl | hc
        · exact h1
        · exact h1.trans (hd c hc)
      · exact List.pairwise_cons.2 ⟨fun c hc => h2 ▸ hd c hc, hm⟩
      · refine List.pairwise_cons.2 ⟨fun c hc => ?_, ih hm⟩
        rcases Memory.mem_insert hc with rfl | hc
        · show d.1 < a
          omega
        · exact hd c hc
  · rcases Memory.mem_insert hc with rfl | hc
    · exact ⟨ha, hv⟩
    · exact h.2 c hc

theorem Memory.wf_write {m : Memory} (h : m.wf) {a : Nat} (ha : a < Config.memSize) (v : Byte) :
    (m.write a v).wf := by
  unfold Memory.write
  split
  · exact Memory.wf_erase h a
  · next hv => exact Memory.wf_insert h ha hv

theorem Memory.wf_writeBytes {m : Memory} (h : m.wf) (a : Nat) (bytes : List Byte) :
    (m.writeBytes a bytes).wf := by
  induction bytes generalizing m a with
  | nil => exact h
  | cons v rest ih =>
    simp only [Memory.writeBytes]
    split
    · next ha => exact ih (Memory.wf_write h ha v) _
    · exact ih h _

/-- What consecutive writes leave: the bytes from `a` upward as far as there are cells, every other cell as before. -/
theorem Memory.read_writeBytes (m : Memory) (a b : Nat) (bytes : List Byte) :
    (m.writeBytes a bytes).read b =
      if h : a ≤ b ∧ b < a + bytes.length ∧ b < Config.memSize then bytes[b - a] else m.read b := by
  induction bytes generalizing m a with
  | nil => rw [dif_neg (by simp; omega)]; rfl
  | cons v rest ih =>
    rw [Memory.writeBytes, ih]
    by_cases hb : a = b
    · subst hb
      rw [dif_neg (by omega)]
      by_cases ha : a < Config.memSize
      · simp [ha]
      · rw [if_neg ha, dif_neg (by omega)]
    · by_cases hr : a + 1 ≤ b ∧ b < a + 1 + rest.length ∧ b < Config.memSize
      · rw [dif_pos hr, dif_pos (by simp; omega)]
        obtain ⟨n, hn⟩ : ∃ n, b - a = n + 1 := ⟨b - a - 1, by omega⟩
        have hn' : b - (a + 1) = n := by omega
        simp [hn, hn']
      · rw [dif_neg hr, dif_neg (by simp; omega)]
        split
        · exact Memory.read_write_of_ne m hb v
        · rfl

end Sys2Proof.Machine
end

