-- ==== Sys2Proof/Laws/State.lean ====
section
/-! SUPPORT. One lemma for each field and each update of the state, so that no later proof unfolds a record update. -/

namespace Sys2Proof.Machine

variable (s : State)

/-! General register write. -/

@[simp] theorem State.setReg_x (i : Fin Config.nregs) (v : Byte) : (s.setReg i v).x = s.x.set i.val v := rfl
@[simp] theorem State.setReg_pc (i : Fin Config.nregs) (v : Byte) : (s.setReg i v).pc = s.pc := rfl
@[simp] theorem State.setReg_fl (i : Fin Config.nregs) (v : Byte) : (s.setReg i v).fl = s.fl := rfl
@[simp] theorem State.setReg_ra (i : Fin Config.nregs) (v : Byte) : (s.setReg i v).ra = s.ra := rfl
@[simp] theorem State.setReg_run (i : Fin Config.nregs) (v : Byte) : (s.setReg i v).run = s.run := rfl
@[simp] theorem State.setReg_err (i : Fin Config.nregs) (v : Byte) : (s.setReg i v).err = s.err := rfl
@[simp] theorem State.setReg_out (i : Fin Config.nregs) (v : Byte) : (s.setReg i v).out = s.out := rfl
@[simp] theorem State.setReg_mem (i : Fin Config.nregs) (v : Byte) : (s.setReg i v).mem = s.mem := rfl

/-! Program counter write. -/

@[simp] theorem State.setPc_x (v : PcWord) : (s.setPc v).x = s.x := rfl
@[simp] theorem State.setPc_pc (v : PcWord) : (s.setPc v).pc = v := rfl
@[simp] theorem State.setPc_fl (v : PcWord) : (s.setPc v).fl = s.fl := rfl
@[simp] theorem State.setPc_ra (v : PcWord) : (s.setPc v).ra = s.ra := rfl
@[simp] theorem State.setPc_run (v : PcWord) : (s.setPc v).run = s.run := rfl
@[simp] theorem State.setPc_err (v : PcWord) : (s.setPc v).err = s.err := rfl
@[simp] theorem State.setPc_out (v : PcWord) : (s.setPc v).out = s.out := rfl
@[simp] theorem State.setPc_mem (v : PcWord) : (s.setPc v).mem = s.mem := rfl

/-! Flags register write. -/

@[simp] theorem State.setFl_x (v : Byte) : (s.setFl v).x = s.x := rfl
@[simp] theorem State.setFl_pc (v : Byte) : (s.setFl v).pc = s.pc := rfl
@[simp] theorem State.setFl_fl (v : Byte) : (s.setFl v).fl = v := rfl
@[simp] theorem State.setFl_ra (v : Byte) : (s.setFl v).ra = s.ra := rfl
@[simp] theorem State.setFl_run (v : Byte) : (s.setFl v).run = s.run := rfl
@[simp] theorem State.setFl_err (v : Byte) : (s.setFl v).err = s.err := rfl
@[simp] theorem State.setFl_out (v : Byte) : (s.setFl v).out = s.out := rfl
@[simp] theorem State.setFl_mem (v : Byte) : (s.setFl v).mem = s.mem := rfl

/-! Return-address latch write. -/

@[simp] theorem State.setRa_x (v : Byte) : (s.setRa v).x = s.x := rfl
@[simp] theorem State.setRa_pc (v : Byte) : (s.setRa v).pc = s.pc := rfl
@[simp] theorem State.setRa_fl (v : Byte) : (s.setRa v).fl = s.fl := rfl
@[simp] theorem State.setRa_ra (v : Byte) : (s.setRa v).ra = v := rfl
@[simp] theorem State.setRa_run (v : Byte) : (s.setRa v).run = s.run := rfl
@[simp] theorem State.setRa_err (v : Byte) : (s.setRa v).err = s.err := rfl
@[simp] theorem State.setRa_out (v : Byte) : (s.setRa v).out = s.out := rfl
@[simp] theorem State.setRa_mem (v : Byte) : (s.setRa v).mem = s.mem := rfl

/-! Run state write. -/

@[simp] theorem State.setRun_x (v : RunState) : (s.setRun v).x = s.x := rfl
@[simp] theorem State.setRun_pc (v : RunState) : (s.setRun v).pc = s.pc := rfl
@[simp] theorem State.setRun_fl (v : RunState) : (s.setRun v).fl = s.fl := rfl
@[simp] theorem State.setRun_ra (v : RunState) : (s.setRun v).ra = s.ra := rfl
@[simp] theorem State.setRun_run (v : RunState) : (s.setRun v).run = v := rfl
@[simp] theorem State.setRun_err (v : RunState) : (s.setRun v).err = s.err := rfl
@[simp] theorem State.setRun_out (v : RunState) : (s.setRun v).out = s.out := rfl
@[simp] theorem State.setRun_mem (v : RunState) : (s.setRun v).mem = s.mem := rfl

/-! Memory replacement. -/

@[simp] theorem State.setMem_x (v : Memory) : (s.setMem v).x = s.x := rfl
@[simp] theorem State.setMem_pc (v : Memory) : (s.setMem v).pc = s.pc := rfl
@[simp] theorem State.setMem_fl (v : Memory) : (s.setMem v).fl = s.fl := rfl
@[simp] theorem State.setMem_ra (v : Memory) : (s.setMem v).ra = s.ra := rfl
@[simp] theorem State.setMem_run (v : Memory) : (s.setMem v).run = s.run := rfl
@[simp] theorem State.setMem_err (v : Memory) : (s.setMem v).err = s.err := rfl
@[simp] theorem State.setMem_out (v : Memory) : (s.setMem v).out = s.out := rfl
@[simp] theorem State.setMem_mem (v : Memory) : (s.setMem v).mem = v := rfl

/-! Emission. -/

@[simp] theorem State.emit_x (v : Byte) : (s.emit v).x = s.x := rfl
@[simp] theorem State.emit_pc (v : Byte) : (s.emit v).pc = s.pc := rfl
@[simp] theorem State.emit_fl (v : Byte) : (s.emit v).fl = s.fl := rfl
@[simp] theorem State.emit_ra (v : Byte) : (s.emit v).ra = s.ra := rfl
@[simp] theorem State.emit_run (v : Byte) : (s.emit v).run = s.run := rfl
@[simp] theorem State.emit_err (v : Byte) : (s.emit v).err = s.err := rfl
@[simp] theorem State.emit_out (v : Byte) : (s.emit v).out = s.out ++ [v] := rfl
@[simp] theorem State.emit_mem (v : Byte) : (s.emit v).mem = s.mem := rfl

/-! Error entry: everything but `run` and `err` stays (rule R127). -/

@[simp] theorem State.raise_x (c : Cause) : (s.raise c).x = s.x := rfl
@[simp] theorem State.raise_pc (c : Cause) : (s.raise c).pc = s.pc := rfl
@[simp] theorem State.raise_fl (c : Cause) : (s.raise c).fl = s.fl := rfl
@[simp] theorem State.raise_ra (c : Cause) : (s.raise c).ra = s.ra := rfl
@[simp] theorem State.raise_run (c : Cause) : (s.raise c).run = .error := rfl
@[simp] theorem State.raise_err (c : Cause) : (s.raise c).err = { kind := c.kind, pc := s.pc, ir := c.ir, info := c.info } := rfl
@[simp] theorem State.raise_out (c : Cause) : (s.raise c).out = s.out := rfl
@[simp] theorem State.raise_mem (c : Cause) : (s.raise c).mem = s.mem := rfl

/-! The advance touches `pc` alone (rule R74). -/

@[simp] theorem State.finish_x (op : Opcode) : (s.finish op).x = s.x := by
  unfold State.finish; split <;> rfl
@[simp] theorem State.finish_fl (op : Opcode) : (s.finish op).fl = s.fl := by
  unfold State.finish; split <;> rfl
@[simp] theorem State.finish_ra (op : Opcode) : (s.finish op).ra = s.ra := by
  unfold State.finish; split <;> rfl
@[simp] theorem State.finish_run (op : Opcode) : (s.finish op).run = s.run := by
  unfold State.finish; split <;> rfl
@[simp] theorem State.finish_err (op : Opcode) : (s.finish op).err = s.err := by
  unfold State.finish; split <;> rfl
@[simp] theorem State.finish_out (op : Opcode) : (s.finish op).out = s.out := by
  unfold State.finish; split <;> rfl
@[simp] theorem State.finish_mem (op : Opcode) : (s.finish op).mem = s.mem := by
  unfold State.finish; split <;> rfl

theorem State.finish_of_pcSetting {op : Opcode} (h : op.pcSetting = true) : s.finish op = s := by
  simp [State.finish, h]

theorem State.finish_of_not_pcSetting {op : Opcode} (h : op.pcSetting = false) :
    s.finish op = s.setPc (s.pc + BitVec.ofNat 9 op.length) := by
  simp [State.finish, h]

/-! Reading a register after an update. -/

@[simp] theorem State.reg_setReg_self (i : Fin Config.nregs) (v : Byte) : (s.setReg i v).reg i = v := by
  simp [State.reg]

theorem State.reg_setReg_of_ne {i j : Fin Config.nregs} (h : i ≠ j) (v : Byte) :
    (s.setReg i v).reg j = s.reg j := by
  have hij : i.val ≠ j.val := fun e => h (Fin.ext e)
  simp [State.reg, hij]

theorem State.reg_setReg (i j : Fin Config.nregs) (v : Byte) :
    (s.setReg i v).reg j = if i = j then v else s.reg j := by
  split
  · next h => simp [h]
  · next h => exact s.reg_setReg_of_ne h v

@[simp] theorem State.reg_setPc (v : PcWord) (i : Fin Config.nregs) : (s.setPc v).reg i = s.reg i := rfl
@[simp] theorem State.reg_setFl (v : Byte) (i : Fin Config.nregs) : (s.setFl v).reg i = s.reg i := rfl
@[simp] theorem State.reg_setRa (v : Byte) (i : Fin Config.nregs) : (s.setRa v).reg i = s.reg i := rfl
@[simp] theorem State.reg_setRun (v : RunState) (i : Fin Config.nregs) : (s.setRun v).reg i = s.reg i := rfl
@[simp] theorem State.reg_setMem (v : Memory) (i : Fin Config.nregs) : (s.setMem v).reg i = s.reg i := rfl
@[simp] theorem State.reg_emit (v : Byte) (i : Fin Config.nregs) : (s.emit v).reg i = s.reg i := rfl
@[simp] theorem State.reg_raise (c : Cause) (i : Fin Config.nregs) : (s.raise c).reg i = s.reg i := rfl

@[simp] theorem State.reg_finish (op : Opcode) (i : Fin Config.nregs) : (s.finish op).reg i = s.reg i := by
  simp [State.reg]

/-! The stack pointer is register 7 (rule R11). -/

@[simp] theorem State.sp_decSp : s.decSp.sp = s.sp - 1 := by
  simp [State.decSp, State.sp]

@[simp] theorem State.sp_incSp : s.incSp.sp = s.sp + 1 := by
  simp [State.incSp, State.sp]

@[simp] theorem State.decSp_pc : s.decSp.pc = s.pc := rfl
@[simp] theorem State.decSp_fl : s.decSp.fl = s.fl := rfl
@[simp] theorem State.decSp_ra : s.decSp.ra = s.ra := rfl
@[simp] theorem State.decSp_run : s.decSp.run = s.run := rfl
@[simp] theorem State.decSp_err : s.decSp.err = s.err := rfl
@[simp] theorem State.decSp_out : s.decSp.out = s.out := rfl
@[simp] theorem State.decSp_mem : s.decSp.mem = s.mem := rfl
@[simp] theorem State.incSp_pc : s.incSp.pc = s.pc := rfl
@[simp] theorem State.incSp_fl : s.incSp.fl = s.fl := rfl
@[simp] theorem State.incSp_ra : s.incSp.ra = s.ra := rfl
@[simp] theorem State.incSp_run : s.incSp.run = s.run := rfl
@[simp] theorem State.incSp_err : s.incSp.err = s.err := rfl
@[simp] theorem State.incSp_out : s.incSp.out = s.out := rfl
@[simp] theorem State.incSp_mem : s.incSp.mem = s.mem := rfl

end Sys2Proof.Machine
end

