-- ==== Sys2Proof/Laws/Ops.lean ====
section
/-! SUPPORT. What each shared operation can do, said once: the dispatch table, register operands, memory accesses, the
push, the ALU, the advance and the end of a cycle. -/

namespace Sys2Proof

/-! ### The dispatch table -/

theorem Opcode.byte_injective {op op' : Opcode} (h : op.byte = op'.byte) : op = op' := by
  cases op <;> cases op' <;> first | rfl | exact absurd h (by decide)

@[simp] theorem dispatch_byte (op : Opcode) : dispatch op.byte = some op := by
  cases op <;> rfl

/-- A byte selects a handler exactly when it is that handler's byte (rules R51, R56). -/
theorem dispatch_eq_some {ir : Byte} {op : Opcode} : dispatch ir = some op ↔ ir = op.byte := by
  refine ⟨fun h => ?_, fun h => h ▸ dispatch_byte op⟩
  have hb : (op.byte == ir) = true := List.find?_some (p := fun op : Opcode => op.byte == ir) h
  exact (eq_of_beq hb).symm

/-- The operand counts of rule R56, read from the bytes' top two bits. -/
theorem Opcode.operandCount_eq (op : Opcode) :
    op.operandCount = match op with
      | .hlt | .ret => 0
      | .push | .pop | .prn | .call | .jmp | .jeq | .jne => 1
      | .ldi | .mul | .cmp => 2 := by
  cases op <;> decide

theorem Opcode.length_eq (op : Opcode) :
    op.length = match op with
      | .hlt | .ret => 1
      | .push | .pop | .prn | .call | .jmp | .jeq | .jne => 2
      | .ldi | .mul | .cmp => 3 := by
  cases op <;> decide

theorem Opcode.operandCount_le (op : Opcode) : op.operandCount ≤ Config.maxOperands := by
  cases op <;> decide

@[simp] theorem Instr.opcode_assemble (op : Opcode) (a b : Byte) : (op.assemble a b).opcode = op := by
  cases op <;> rfl

namespace Machine

/-! ### Register operands -/

theorem regIndex_of_lt {ir b : Byte} (h : b.toNat < Config.nregs) : regIndex ir b = .ok ⟨b.toNat, h⟩ := by
  simp [regIndex, h]

theorem regIndex_of_ge {ir b : Byte} (h : Config.nregs ≤ b.toNat) :
    regIndex ir b = .error (Cause.regBounds ir b) := by
  simp [regIndex, Nat.not_lt.2 h]

/-- A register number written as an operand byte reads back as itself (rule R63). -/
@[simp] theorem regIndex_regByte (ir : Byte) (i : Fin Config.nregs) : regIndex ir (regByte i) = .ok i := by
  have h : (regByte i).toNat = i.val := by
    have hi : i.val < 8 := i.isLt
    simp only [regByte, BitVec.toNat_ofNat]
    omega
  simp [regIndex, h]

/-- A register operand is an index equal to the whole byte, or the byte is above 7 and the error says so (rule R54). -/
theorem regIndex_cases (ir b : Byte) :
    (∃ i : Fin Config.nregs, i.val = b.toNat ∧ regIndex ir b = .ok i) ∨
      (Config.nregs ≤ b.toNat ∧ regIndex ir b = .error (Cause.regBounds ir b)) := by
  by_cases h : b.toNat < Config.nregs
  · exact .inl ⟨⟨b.toNat, h⟩, rfl, regIndex_of_lt h⟩
  · exact .inr ⟨Nat.not_lt.1 h, regIndex_of_ge (Nat.not_lt.1 h)⟩

/-! ### Memory accesses -/

theorem State.memRead_of_lt (s : State) {ir : Byte} {a : Nat} (h : a < Config.memSize) :
    s.memRead ir a = .ok (s.mem.read a) := by
  simp [State.memRead, h]

theorem State.memRead_of_ge (s : State) {ir : Byte} {a : Nat} (h : Config.memSize ≤ a) :
    s.memRead ir a = .error (Cause.memBounds ir a) := by
  simp [State.memRead, Nat.not_lt.2 h]

/-- An address formed from a byte is never out of range (rule R31). -/
@[simp] theorem State.memRead_byte (s : State) (ir a : Byte) :
    s.memRead ir a.toNat = .ok (s.mem.read a.toNat) :=
  s.memRead_of_lt a.isLt

@[simp] theorem State.memWrite_byte (s : State) (ir a v : Byte) :
    s.memWrite ir a.toNat v = .ok (s.setMem (s.mem.write a.toNat v)) := by
  simp [State.memWrite, show a.toNat < Config.memSize from a.isLt]

/-- A push never fails: the stack pointer moves down by one modulo 256 and one byte is stored at the new value (rules
R31, R100, R106). -/
@[simp] theorem State.push_eq (s : State) (ir : Byte) (v : State → Byte) :
    s.push ir v = .ok (s.decSp.setMem (s.mem.write (s.sp - 1).toNat (v s.decSp))) := by
  unfold State.push
  rw [State.memWrite_byte, State.sp_decSp]
  rfl

/-! ### The ALU -/

@[simp] theorem State.applyAlu_add (s : State) (i j : Fin Config.nregs) :
    s.applyAlu .add i j = s.setReg i (aluAdd (s.reg i) (s.reg j)) := rfl

@[simp] theorem State.applyAlu_mul (s : State) (i j : Fin Config.nregs) :
    s.applyAlu .mul i j = s.setReg i (aluMul (s.reg i) (s.reg j)) := rfl

@[simp] theorem State.applyAlu_compare (s : State) (i j : Fin Config.nregs) :
    s.applyAlu .compare i j = s.setFl (compareFlags (s.reg i) (s.reg j)) := rfl

/-- The three outcomes of a comparison (rule R88). -/
theorem compareFlags_cases (p q : Byte) :
    (p.toNat < q.toNat ∧ compareFlags p q = 4) ∨ (q.toNat < p.toNat ∧ compareFlags p q = 2) ∨
      (p = q ∧ compareFlags p q = 1) := by
  rcases Nat.lt_trichotomy p.toNat q.toNat with h | h | h
  · exact .inl ⟨h, by simp [compareFlags, packFlags, h, Nat.lt_asymm h, Nat.ne_of_lt h]⟩
  · exact .inr (.inr ⟨BitVec.eq_of_toNat_eq h, by simp [compareFlags, packFlags, h]⟩)
  · exact .inr (.inl ⟨h, by simp [compareFlags, packFlags, h, Nat.lt_asymm h, Nat.ne_of_gt h]⟩)

/-! ### The end of a cycle -/

@[simp] theorem settle_ok (s t : State) : settle s (.ok t) = .next t := rfl

@[simp] theorem settle_error (s : State) (c : Cause) : settle s (.error c) = .next (s.raise c) := rfl

/-- A cycle ends in a next state: its result, or error entry from the state it began in (rule R127). -/
theorem settle_cases (s : State) (r : Except Cause State) :
    (∃ t, r = .ok t ∧ settle s r = .next t) ∨ (∃ c, r = .error c ∧ settle s r = .next (s.raise c)) := by
  cases r with
  | ok t => exact .inl ⟨t, rfl, rfl⟩
  | error c => exact .inr ⟨c, rfl, rfl⟩

end Machine
end Sys2Proof
end

