-- ==== Sys2Proof/Laws/Exec.lean ====
section
/-! SUPPORT. What executing an instruction can do, said once: one of three raises, or the instruction's own effect. -/

namespace Sys2Proof.Machine

/-- The next state of an instruction that completes, with register numbers `i` and `j` for its operand bytes. -/
def Completes (ins : Instr) (s t : State) : Prop :=
  match ins with
  | .hlt => t = s.setRun .halted
  | .ret => t = ((s.setRa (s.mem.read s.sp.toNat)).incSp).setPc (zext9 (s.mem.read s.sp.toNat))
  | .push a => ∃ i : Fin Config.nregs, i.val = a.toNat ∧
      t = (s.decSp.setMem (s.mem.write (s.sp - 1).toNat (s.decSp.reg i))).setPc (s.pc + 2)
  | .pop a => ∃ i : Fin Config.nregs, i.val = a.toNat ∧
      t = (s.setReg i (s.mem.read s.sp.toNat)).incSp.setPc (s.pc + 2)
  | .prn a => ∃ i : Fin Config.nregs, i.val = a.toNat ∧ t = (s.emit (s.reg i)).setPc (s.pc + 2)
  | .call a => ∃ i : Fin Config.nregs, i.val = a.toNat ∧ s.pc.toNat + 2 ≤ 255 ∧
      t = ((s.decSp.setRa (BitVec.ofNat 8 (s.pc.toNat + 2))).setMem
        (s.mem.write (s.sp - 1).toNat (BitVec.ofNat 8 (s.pc.toNat + 2)))).setPc (zext9 (s.decSp.reg i))
  | .jmp a => ∃ i : Fin Config.nregs, i.val = a.toNat ∧ t = s.setPc (zext9 (s.reg i))
  | .jeq a => ∃ i : Fin Config.nregs, i.val = a.toNat ∧
      t = s.setPc (if flagE s.fl then zext9 (s.reg i) else s.pc + 2)
  | .jne a => ∃ i : Fin Config.nregs, i.val = a.toNat ∧
      t = s.setPc (if flagE s.fl then s.pc + 2 else zext9 (s.reg i))
  | .ldi a v => ∃ i : Fin Config.nregs, i.val = a.toNat ∧ i ≠ Config.spIndex ∧ t = (s.setReg i v).setPc (s.pc + 3)
  | .mul a b => ∃ i j : Fin Config.nregs, i.val = a.toNat ∧ j.val = b.toNat ∧
      t = (s.setReg i (aluMul (s.reg i) (s.reg j))).setPc (s.pc + 3)
  | .cmp a b => ∃ i j : Fin Config.nregs, i.val = a.toNat ∧ j.val = b.toNat ∧
      t = (s.setFl (compareFlags (s.reg i) (s.reg j))).setPc (s.pc + 3)

/-- Executing any instruction in any state ends in a next state, in one of four ways: a bad register operand, LDI to the
stack pointer, a return address that is no memory address, or completion. -/
theorem exec_cases (ins : Instr) (s : State) :
    (∃ b : Byte, Config.nregs ≤ b.toNat ∧ exec ins s = .next (s.raise (Cause.regBounds ins.opcode.byte b))) ∨
    (∃ v : Byte, ins = .ldi (regByte Config.spIndex) v ∧
      exec ins s = .next (s.raise (Cause.protectedRegister Opcode.ldi.byte Config.spIndex))) ∨
    (∃ a : Byte, ins = .call a ∧ 255 < s.pc.toNat + 2 ∧
      exec ins s = .next (s.raise (Cause.memBounds Opcode.call.byte (s.pc.toNat + 2)))) ∨
    (∃ t : State, exec ins s = .next t ∧ Completes ins s t) := by
  have l2 : ∀ op : Opcode, op.pcSetting = false → op.length = 2 →
      ∀ t : State, t.finish op = t.setPc (t.pc + 2) := fun op h h' t => by
    rw [State.finish_of_not_pcSetting _ h, h']; rfl
  have l3 : ∀ op : Opcode, op.pcSetting = false → op.length = 3 →
      ∀ t : State, t.finish op = t.setPc (t.pc + 3) := fun op h h' t => by
    rw [State.finish_of_not_pcSetting _ h, h']; rfl
  have l0 : ∀ op : Opcode, op.pcSetting = true → ∀ t : State, t.finish op = t :=
    fun op h t => State.finish_of_pcSetting _ h
  cases ins with
  | hlt => exact .inr (.inr (.inr ⟨_, rfl, rfl⟩))
  | ret =>
    refine .inr (.inr (.inr ⟨_, ?_, rfl⟩))
    simp [exec, execRet, bind, Except.bind, pure, Except.pure, l0 .ret rfl]
  | push a =>
    rcases regIndex_cases Opcode.push.byte a with ⟨i, hi, e⟩ | ⟨h, e⟩
    · refine .inr (.inr (.inr ⟨_, ?_, i, hi, rfl⟩))
      simp [exec, execPush, e, bind, Except.bind, pure, Except.pure, l2 .push rfl (Opcode.length_eq .push)]
    · exact .inl ⟨a, h, by simp [exec, execPush, e, bind, Except.bind, Instr.opcode]⟩
  | pop a =>
    rcases regIndex_cases Opcode.pop.byte a with ⟨i, hi, e⟩ | ⟨h, e⟩
    · refine .inr (.inr (.inr ⟨_, ?_, i, hi, rfl⟩))
      simp [exec, execPop, e, bind, Except.bind, pure, Except.pure, l2 .pop rfl (Opcode.length_eq .pop)]
    · exact .inl ⟨a, h, by simp [exec, execPop, e, bind, Except.bind, Instr.opcode]⟩
  | prn a =>
    rcases regIndex_cases Opcode.prn.byte a with ⟨i, hi, e⟩ | ⟨h, e⟩
    · refine .inr (.inr (.inr ⟨_, ?_, i, hi, rfl⟩))
      simp [exec, execPrn, e, bind, Except.bind, pure, Except.pure, l2 .prn rfl (Opcode.length_eq .prn)]
    · exact .inl ⟨a, h, by simp [exec, execPrn, e, bind, Except.bind, Instr.opcode]⟩
  | call a =>
    rcases regIndex_cases Opcode.call.byte a with ⟨i, hi, e⟩ | ⟨h, e⟩
    · by_cases hp : s.pc.toNat + 2 > 255
      · exact .inr (.inr (.inl ⟨a, rfl, hp, by simp [exec, execCall, e, hp, bind, Except.bind]⟩))
      · refine .inr (.inr (.inr ⟨_, ?_, i, hi, by omega, rfl⟩))
        simp only [exec, execCall, e, hp, bind, Except.bind, pure, Except.pure, l0 .call rfl, if_false, State.push_eq,
          settle_ok]
        rfl
    · exact .inl ⟨a, h, by simp [exec, execCall, e, bind, Except.bind, Instr.opcode]⟩
  | jmp a =>
    rcases regIndex_cases Opcode.jmp.byte a with ⟨i, hi, e⟩ | ⟨h, e⟩
    · refine .inr (.inr (.inr ⟨_, ?_, i, hi, rfl⟩))
      simp [exec, execJmp, e, bind, Except.bind, pure, Except.pure, l0 .jmp rfl]
    · exact .inl ⟨a, h, by simp [exec, execJmp, e, bind, Except.bind, Instr.opcode]⟩
  | jeq a =>
    rcases regIndex_cases Opcode.jeq.byte a with ⟨i, hi, e⟩ | ⟨h, e⟩
    · refine .inr (.inr (.inr ⟨_, ?_, i, hi, rfl⟩))
      simp [exec, execJeq, e, bind, Except.bind, pure, Except.pure, l0 .jeq rfl]
    · exact .inl ⟨a, h, by simp [exec, execJeq, e, bind, Except.bind, Instr.opcode]⟩
  | jne a =>
    rcases regIndex_cases Opcode.jne.byte a with ⟨i, hi, e⟩ | ⟨h, e⟩
    · refine .inr (.inr (.inr ⟨_, ?_, i, hi, rfl⟩))
      simp [exec, execJne, e, bind, Except.bind, pure, Except.pure, l0 .jne rfl]
    · exact .inl ⟨a, h, by simp [exec, execJne, e, bind, Except.bind, Instr.opcode]⟩
  | ldi a v =>
    rcases regIndex_cases Opcode.ldi.byte a with ⟨i, hi, e⟩ | ⟨h, e⟩
    · by_cases h7 : i = Config.spIndex
      · subst h7
        have ha : a = regByte Config.spIndex := BitVec.eq_of_toNat_eq hi.symm
        exact .inr (.inl ⟨v, by rw [ha], by simp [exec, execLdi, e, bind, Except.bind]⟩)
      · refine .inr (.inr (.inr ⟨_, ?_, i, hi, h7, rfl⟩))
        simp [exec, execLdi, e, h7, bind, Except.bind, pure, Except.pure, l3 .ldi rfl (Opcode.length_eq .ldi)]
    · exact .inl ⟨a, h, by simp [exec, execLdi, e, bind, Except.bind, Instr.opcode]⟩
  | mul a b =>
    rcases regIndex_cases Opcode.mul.byte a with ⟨i, hi, e⟩ | ⟨h, e⟩
    · rcases regIndex_cases Opcode.mul.byte b with ⟨j, hj, e'⟩ | ⟨h, e'⟩
      · refine .inr (.inr (.inr ⟨_, ?_, i, j, hi, hj, rfl⟩))
        simp [exec, execMul, e, e', bind, Except.bind, pure, Except.pure, l3 .mul rfl (Opcode.length_eq .mul)]
      · exact .inl ⟨b, h, by simp [exec, execMul, e, e', bind, Except.bind, Instr.opcode]⟩
    · exact .inl ⟨a, h, by simp [exec, execMul, e, bind, Except.bind, Instr.opcode]⟩
  | cmp a b =>
    rcases regIndex_cases Opcode.cmp.byte a with ⟨i, hi, e⟩ | ⟨h, e⟩
    · rcases regIndex_cases Opcode.cmp.byte b with ⟨j, hj, e'⟩ | ⟨h, e'⟩
      · refine .inr (.inr (.inr ⟨_, ?_, i, j, hi, hj, rfl⟩))
        simp [exec, execCmp, e, e', bind, Except.bind, pure, Except.pure, l3 .cmp rfl (Opcode.length_eq .cmp)]
      · exact .inl ⟨b, h, by simp [exec, execCmp, e, e', bind, Except.bind, Instr.opcode]⟩
    · exact .inl ⟨a, h, by simp [exec, execCmp, e, bind, Except.bind, Instr.opcode]⟩

end Sys2Proof.Machine
end

