-- ==== Sys2Proof/Laws/PerInstr.lean ====
section
/-! SUPPORT. Laws that hold of every instruction as syntax, one lemma for each constructor. EncodedLength: an encoded
instruction has the length that the top two bits of its first byte announce (rule R52). -/

namespace Sys2Proof.Laws

/-- The encoding's length is the instruction byte and as many operand bytes as `AA` says. -/
def EncodedLength.Statement (i : Instr) : Prop :=
  (encode i).length = i.opcode.length

theorem EncodedLength.of_operandBytes {i : Instr} (h : i.operandBytes.length = i.opcode.operandCount) :
    EncodedLength.Statement i := by
  simp only [EncodedLength.Statement, encode, List.length_cons, Opcode.length, h]
  omega

theorem EncodedLength.hlt : EncodedLength.Statement .hlt :=
  EncodedLength.of_operandBytes (by rw [Opcode.operandCount_eq]; rfl)
theorem EncodedLength.ret : EncodedLength.Statement .ret :=
  EncodedLength.of_operandBytes (by rw [Opcode.operandCount_eq]; rfl)
theorem EncodedLength.push (a : Byte) : EncodedLength.Statement (.push a) :=
  EncodedLength.of_operandBytes (by rw [Opcode.operandCount_eq]; rfl)
theorem EncodedLength.pop (a : Byte) : EncodedLength.Statement (.pop a) :=
  EncodedLength.of_operandBytes (by rw [Opcode.operandCount_eq]; rfl)
theorem EncodedLength.prn (a : Byte) : EncodedLength.Statement (.prn a) :=
  EncodedLength.of_operandBytes (by rw [Opcode.operandCount_eq]; rfl)
theorem EncodedLength.call (a : Byte) : EncodedLength.Statement (.call a) :=
  EncodedLength.of_operandBytes (by rw [Opcode.operandCount_eq]; rfl)
theorem EncodedLength.jmp (a : Byte) : EncodedLength.Statement (.jmp a) :=
  EncodedLength.of_operandBytes (by rw [Opcode.operandCount_eq]; rfl)
theorem EncodedLength.jeq (a : Byte) : EncodedLength.Statement (.jeq a) :=
  EncodedLength.of_operandBytes (by rw [Opcode.operandCount_eq]; rfl)
theorem EncodedLength.jne (a : Byte) : EncodedLength.Statement (.jne a) :=
  EncodedLength.of_operandBytes (by rw [Opcode.operandCount_eq]; rfl)
theorem EncodedLength.ldi (a imm : Byte) : EncodedLength.Statement (.ldi a imm) :=
  EncodedLength.of_operandBytes (by rw [Opcode.operandCount_eq]; rfl)
theorem EncodedLength.mul (a b : Byte) : EncodedLength.Statement (.mul a b) :=
  EncodedLength.of_operandBytes (by rw [Opcode.operandCount_eq]; rfl)
theorem EncodedLength.cmp (a b : Byte) : EncodedLength.Statement (.cmp a b) :=
  EncodedLength.of_operandBytes (by rw [Opcode.operandCount_eq]; rfl)

end Sys2Proof.Laws
end

