-- ==== Sys2Proof/Laws/Ports.lean ====
section
/-! SUPPORT. What each interface of the block can do, said once. -/

namespace Sys2Proof.Machine

variable (b : Block)

@[simp] theorem Block.setMem_phase (m : Memory) : (b.setMem m).phase = b.phase := rfl
@[simp] theorem Block.setMem_core (m : Memory) : (b.setMem m).core = b.core.setMem m := rfl
@[simp] theorem Block.setMem_setMem (m n : Memory) : (b.setMem m).setMem n = b.setMem n := rfl
@[simp] theorem Block.setMem_self : b.setMem b.core.mem = b := rfl

@[simp] theorem portStart_phase : (portStart b).phase = .started := rfl
@[simp] theorem portStart_core : (portStart b).core = b.core := rfl

/-- A write of memory leaves the block inside or outside the load port's contract. -/
@[simp] theorem Block.mayLoad_setMem (m : Memory) : (b.setMem m).mayLoad ↔ b.mayLoad := Iff.rfl

theorem Block.mayLoad_reset : Block.reset.mayLoad := ⟨rfl, rfl⟩

/-- No load after start. -/
theorem not_mayLoad_portStart : ¬ (portStart b).mayLoad := by simp [Block.mayLoad]

variable {b}

theorem portLoad_of_mayLoad (h : b.mayLoad) (addr data : Byte) :
    portLoad addr data b = some (b.setMem (b.core.mem.write addr.toNat data)) := if_pos h

theorem portLoad_of_not_mayLoad (h : ¬ b.mayLoad) (addr data : Byte) : portLoad addr data b = none := if_neg h

/-- When a load has a move, it is inside the contract, and memory keeps its canonical form. -/
theorem portLoad_some {c : Block} {addr data : Byte} (h : portLoad addr data b = some c) :
    b.mayLoad ∧ c = b.setMem (b.core.mem.write addr.toNat data) ∧ (b.core.mem.wf → c.core.mem.wf) := by
  by_cases hb : b.mayLoad
  · rw [portLoad_of_mayLoad hb] at h
    obtain rfl := Option.some.inj h
    exact ⟨hb, rfl, fun hm => Memory.wf_write hm addr.isLt data⟩
  · rw [portLoad_of_not_mayLoad hb] at h
    cases h

/-- Loading bytes one by one through the port is one write of consecutive bytes, as far as there are cells. -/
theorem loadFrom_eq (h : b.mayLoad) (a : Nat) (bytes : List Byte) (hle : a + bytes.length ≤ Config.memSize) :
    loadFrom (BitVec.ofNat 8 a) bytes b = some (b.setMem (b.core.mem.writeBytes a bytes)) := by
  induction bytes generalizing a b with
  | nil => rfl
  | cons v rest ih =>
    have ha : a < Config.memSize := by simp only [List.length_cons] at hle; omega
    have hn : (BitVec.ofNat 8 a).toNat = a := Nat.mod_eq_of_lt ha
    have hs : BitVec.ofNat 8 a + 1 = BitVec.ofNat 8 (a + 1) := (BitVec.ofNat_add a 1).symm
    have h' : (b.setMem (b.core.mem.write a v)).mayLoad := h
    have hr : a + 1 + rest.length ≤ Config.memSize := by simp only [List.length_cons] at hle; omega
    rw [loadFrom, portLoad_of_mayLoad h, Option.bind_some, hn, hs, ih h' (a + 1) hr, Memory.writeBytes, if_pos ha]
    rfl

theorem loadImage_eq (h : b.mayLoad) (image : List Byte) (hle : image.length ≤ Config.memSize) :
    loadImage image b = some (b.setMem (b.core.mem.writeBytes 0 image)) := by
  rw [loadImage, if_pos ⟨h, hle⟩]
  exact loadFrom_eq h 0 image (by omega)

theorem loadImage_of_not_mayLoad (h : ¬ b.mayLoad) (image : List Byte) : loadImage image b = none :=
  if_neg fun hb => h hb.1

theorem launch_eq (image : List Byte) (hle : image.length ≤ Config.memSize) :
    launch image = some (State.reset.setMem (State.reset.mem.writeBytes 0 image)) := by
  rw [launch, loadImage_eq Block.mayLoad_reset image hle]
  rfl

/-- What a step of the block can do: nothing before start, the core's step after it. -/
theorem Block.step_cases (b : Block) :
    (b.phase = .loading ∧ b.step = .next b) ∨
      (b.phase = .started ∧ ∀ s : State, Sys2Proof.Machine.step b.core = .next s → b.step = .next { b with core := s }) := by
  cases hp : b.phase with
  | loading => exact .inl ⟨rfl, by simp [Block.step, hp]⟩
  | started => exact .inr ⟨rfl, fun s hs => by simp [Block.step, hp, hs]⟩

end Sys2Proof.Machine
end

