-- ==== Sys2Proof/Laws/Step.lean ====
section
/-! SUPPORT. What the fetch and the step can do, said once. -/

namespace Sys2Proof.Machine

theorem decodeByte_of_some {ir : Byte} {op : Opcode} (h : dispatch ir = some op) : decodeByte ir = .ok op := by
  simp [decodeByte, h]

theorem decodeByte_of_none {ir : Byte} (h : dispatch ir = none) :
    decodeByte ir = .error (Cause.undefinedByte ir) := by
  simp [decodeByte, h]

/-- One operand fetch: out of range, or the byte; no access for an operand the instruction does not have (rule R73). -/
theorem State.fetchOperand_eq (s : State) (op : Opcode) (k : Nat) :
    s.fetchOperand op k =
      if k ≤ op.operandCount ∧ Config.memSize ≤ s.pc.toNat + k then
        .error (Cause.memBounds op.byte (s.pc.toNat + k))
      else .ok (if k ≤ op.operandCount then s.mem.read (s.pc.toNat + k) else 0) := by
  unfold State.fetchOperand State.memRead
  split_ifs <;> first | rfl | omega

/-- The fetch as one chain of checks, in the order of rule R126 items 1 to 4. -/
theorem State.fetchInstr_eq (s : State) :
    s.fetchInstr =
      if Config.memSize ≤ s.pc.toNat then .error (Cause.memBounds 0 s.pc.toNat)
      else match dispatch (s.mem.read s.pc.toNat) with
        | none => .error (Cause.undefinedByte (s.mem.read s.pc.toNat))
        | some op =>
          if 1 ≤ op.operandCount ∧ Config.memSize ≤ s.pc.toNat + 1 then
            .error (Cause.memBounds op.byte (s.pc.toNat + 1))
          else if 2 ≤ op.operandCount ∧ Config.memSize ≤ s.pc.toNat + 2 then
            .error (Cause.memBounds op.byte (s.pc.toNat + 2))
          else
            .ok (op.assemble (if 1 ≤ op.operandCount then s.mem.read (s.pc.toNat + 1) else 0)
              (if 2 ≤ op.operandCount then s.mem.read (s.pc.toNat + 2) else 0)) := by
  unfold State.fetchInstr
  by_cases hpc : Config.memSize ≤ s.pc.toNat
  · rw [if_pos hpc, State.memRead_of_ge s hpc]; rfl
  rw [if_neg hpc, State.memRead_of_lt s (Nat.not_le.1 hpc)]
  cases hd : dispatch (s.mem.read s.pc.toNat) with
  | none => simp [decodeByte_of_none hd, bind, Except.bind]
  | some op =>
    have hb : decodeByte (s.mem.read s.pc.toNat) = .ok op := decodeByte_of_some hd
    simp only [bind, Except.bind, hb, State.fetchOperand_eq]
    by_cases h1 : 1 ≤ op.operandCount ∧ Config.memSize ≤ s.pc.toNat + 1
    · simp only [if_pos h1]
    · by_cases h2 : 2 ≤ op.operandCount ∧ Config.memSize ≤ s.pc.toNat + 2
      · simp only [if_neg h1, if_pos h2]
      · simp only [if_neg h1, if_neg h2]
        rfl

/-- A fetch that succeeds: the byte at `pc` is the instruction's own byte, and the whole instruction lies in memory. -/
theorem State.fetchInstr_ok {s : State} {i : Instr} (h : s.fetchInstr = .ok i) :
    s.mem.read s.pc.toNat = i.opcode.byte ∧ s.pc.toNat + i.opcode.length ≤ Config.memSize := by
  rw [State.fetchInstr_eq] at h
  split at h
  · cases h
  next hpc =>
  split at h
  · cases h
  next op hd =>
  split at h
  · cases h
  next h1 =>
  split at h
  · cases h
  next h2 =>
  obtain rfl := Except.ok.inj h
  rw [Instr.opcode_assemble]
  refine ⟨dispatch_eq_some.1 hd, ?_⟩
  have hle : op.operandCount ≤ 2 := op.operandCount_le
  simp only [Opcode.length, Config.memSize] at *
  omega

/-- A fetch that fails names one of the causes of rule R126 items 1 to 4. -/
theorem State.fetchInstr_error {s : State} {c : Cause} (h : s.fetchInstr = .error c) :
    (Config.memSize ≤ s.pc.toNat ∧ c = Cause.memBounds 0 s.pc.toNat) ∨
      (dispatch (s.mem.read s.pc.toNat) = none ∧ c = Cause.undefinedByte (s.mem.read s.pc.toNat)) ∨
      (∃ op k, dispatch (s.mem.read s.pc.toNat) = some op ∧ 1 ≤ k ∧ k ≤ op.operandCount ∧
        s.pc.toNat + k = Config.memSize ∧ c = Cause.memBounds op.byte Config.memSize) := by
  rw [State.fetchInstr_eq] at h
  split at h
  · next hpc => cases h; exact .inl ⟨hpc, rfl⟩
  next hpc =>
  split at h
  · next hd => cases h; exact .inr (.inl ⟨hd, rfl⟩)
  next op hd =>
  refine .inr (.inr ⟨op, ?_⟩)
  split_ifs at h with h1 h2
  · cases h
    have e : s.pc.toNat + 1 = Config.memSize := by omega
    exact ⟨1, hd, Nat.le_refl 1, h1.1, e, by rw [e]⟩
  · cases h
    have := op.operandCount_le
    have e : s.pc.toNat + 2 = Config.memSize := by omega
    exact ⟨2, hd, by omega, h2.1, e, by rw [e]⟩

/-- What a step does: nothing in a terminal state (rule R78); error entry when the fetch fails (rule R127); else the
handler of the fetched instruction. -/
theorem step_cases (s : State) :
    (s.run ≠ .running ∧ step s = .next s) ∨
      (s.run = .running ∧ ∃ c, s.fetchInstr = .error c ∧ step s = .next (s.raise c)) ∨
      (s.run = .running ∧ ∃ i, s.fetchInstr = .ok i ∧ step s = exec i s) := by
  cases hr : s.run with
  | halted => exact .inl ⟨by simp, by simp [step, hr, idle]⟩
  | error => exact .inl ⟨by simp, by simp [step, hr, idle]⟩
  | running =>
    cases hf : s.fetchInstr with
    | error c => exact .inr (.inl ⟨rfl, c, rfl, by simp [step, hr, cycle, hf]⟩)
    | ok i => exact .inr (.inr ⟨rfl, i, rfl, by simp [step, hr, cycle, hf]⟩)

/-- Placing a table word changes nothing but memory, and keeps its canonical form. -/
theorem State.withFetchWord_eq (s : State) (nbits w : Nat) :
    s.withFetchWord nbits w = { s with mem := (s.withFetchWord nbits w).mem } := rfl

theorem State.withFetchWord_wf {s : State} (h : s.mem.wf) (nbits w : Nat) : (s.withFetchWord nbits w).mem.wf :=
  Memory.wf_writeBytes h _ _

end Sys2Proof.Machine
end

