-- ==== Sys2Proof/Tests/Slice0.lean ====
section
/-! SUPPORT. The model's own tests: the WellFormed smoke tests, one written-out word for each row of the opcode map,
single steps taken from the vectors of spec/95_test_vectors.md (each test names its vector), and for every statement
with hypotheses a state and operands that meet them. -/

namespace Sys2Proof.Tests

open Sys2Proof.Machine

/-! ### Ill-formed terms, one for each check -/

theorem test_wf_refuses_bad_register_of_one_operand_forms :
    (Instr.push 8).wf = false ∧ (Instr.pop 8).wf = false ∧ (Instr.prn 16).wf = false ∧ (Instr.call 128).wf = false ∧
    (Instr.jmp 8).wf = false ∧ (Instr.jeq 8).wf = false ∧ (Instr.jne 255).wf = false ∧ (Instr.ldi 8 1).wf = false := by
  decide

theorem test_wf_refuses_bad_first_register : (Instr.mul 8 0).wf = false ∧ (Instr.cmp 8 0).wf = false := by decide

theorem test_wf_refuses_bad_second_register : (Instr.mul 0 8).wf = false ∧ (Instr.cmp 7 8).wf = false := by decide

theorem test_wf_accepts_good_operands :
    Instr.hlt.wf = true ∧ Instr.ret.wf = true ∧ (Instr.ldi 7 255).wf = true ∧ (Instr.mul 7 0).wf = true ∧
    (Instr.cmp 0 7).wf = true ∧ (Instr.jne 7).wf = true := by
  decide

/-! ### Decoding: words written out from the opcode map (30_encoding.md rules R53, R56, R60) -/

theorem test_decode_hlt : decode [0b00000001#8] = .ok (.hlt, []) := by decide
theorem test_decode_ret : decode [0b00010001#8] = .ok (.ret, []) := by decide
theorem test_decode_push : decode [0b01000101#8, 0b00000001#8] = .ok (.push 1, []) := by decide
theorem test_decode_pop : decode [0b01000110#8, 0b00000001#8] = .ok (.pop 1, []) := by decide
theorem test_decode_prn : decode [0b01000111#8, 0b00000000#8] = .ok (.prn 0, []) := by decide
theorem test_decode_call : decode [0b01010000#8, 0b00000010#8] = .ok (.call 2, []) := by decide
theorem test_decode_jmp : decode [0b01010100#8, 0b00000010#8] = .ok (.jmp 2, []) := by decide
theorem test_decode_jeq : decode [0b01010101#8, 0b00000010#8] = .ok (.jeq 2, []) := by decide
theorem test_decode_jne : decode [0b01010110#8, 0b00000010#8] = .ok (.jne 2, []) := by decide
theorem test_decode_ldi : decode [0b10000010#8, 0b00000000#8, 0b00001000#8] = .ok (.ldi 0 8, []) := by decide
theorem test_decode_mul : decode [0b10100010#8, 0b00000000#8, 0b00000001#8] = .ok (.mul 0 1, []) := by decide
theorem test_decode_cmp : decode [0b10100111#8, 0b00000000#8, 0b00000001#8] = .ok (.cmp 0 1, []) := by decide

/-- The undefined bytes that 95_test_vectors.md section 2.5 lists. -/
theorem test_decode_undefined :
    ∀ ir ∈ [0x00#8, 0xA0#8, 0x84#8, 0x83#8, 0x02#8, 0x10#8, 0x21#8, 0x41#8, 0x57#8, 0x81#8, 0x91#8, 0xA3#8, 0xC1#8,
      0xFF#8], decode [ir, 0, 0] = .error (.undefinedByte ir) := by
  decide

theorem test_decode_missing_operand : decode [0xA2#8, 0x00#8] = .error (.missingOperand .mul) := by decide

/-- A table word: the second byte is bits 15 to 8. -/
theorem test_decodeTableWord :
    decodeTableWord 24 0x0A0182 = some (.ldi 1 10) ∧ decodeTableWord 8 0x82 = some (.ldi 0 0) ∧
    decodeTableWord 8 0x00 = none := by
  decide

theorem test_encode_ldi : encode (.ldi 0 8) = [0x82#8, 0x00#8, 0x08#8] := by decide

/-! ### Single steps from spec/95_test_vectors.md -/

/-- The reset state with bytes at `pc`. -/
def place (pc : Nat) (bytes : List Byte) : State :=
  { State.reset with pc := BitVec.ofNat 9 pc, mem := Memory.writeBytes [] pc bytes }

/-- The reset state with bytes at `pc` and registers overridden. -/
def placeRegs (pc : Nat) (bytes : List Byte) (x : Vector Byte 8) : State := { place pc bytes with x := x }

/-- One step ends in a next state that passes a check. -/
def stepIs (s : State) (p : State → Bool) : Bool :=
  match step s with
  | .next t => p t
  | .fault _ => false
  | .refused _ => false

/-- MUL-2. -/
theorem test_mul_wraps :
    stepIs (placeRegs 0 [0xA2, 0, 1] #v[0xC8, 3, 0, 0, 0, 0, 0, 0xF4]) (fun t => t.reg 0 == 0x58#8 && t.pc == 3#9) =
      true := by decide

/-- MUL-13: the third byte would be at 256. -/
theorem test_mul_at_254_raises :
    stepIs (placeRegs 254 [0xA2, 0] #v[3, 5, 0, 0, 0, 0, 0, 0xF4]) (fun t =>
      t.run == .error && t.err == ⟨.outOfBoundsAccess .mem, 254, 0xA2, 256⟩ && t.reg 0 == 3#8 && t.pc == 254#9) =
      true := by decide

/-- CMP-7: the old flags are replaced. -/
theorem test_cmp_replaces_flags :
    stepIs { placeRegs 0 [0xA7, 0, 1] #v[1, 2, 0, 0, 0, 0, 0, 0xF4] with fl := 0b001 } (fun t => t.fl == 0b100#8) =
      true := by decide

/-- CMP-4: unsigned. -/
theorem test_cmp_is_unsigned :
    stepIs (placeRegs 0 [0xA7, 0, 1] #v[0xFF, 1, 0, 0, 0, 0, 0, 0xF4]) (fun t => t.fl == 0b010#8 && t.pc == 3#9) =
      true := by decide

/-- LDI-4: the immediate is no register index. -/
theorem test_ldi_immediate_unchecked :
    stepIs (place 0 [0x82, 1, 0xF0]) (fun t => t.reg 1 == 0xF0#8 && t.pc == 3#9) = true := by decide

/-- LDI-5: register 7 is protected. -/
theorem test_ldi_r7_raises :
    stepIs (place 0 [0x82, 7, 0]) (fun t =>
      t.run == .error && t.err == ⟨.protectedRegisterWrite, 0, 0x82, 7⟩ && t.reg 7 == 0xF4#8 && t.pc == 0#9) =
      true := by decide

/-- PRN-3: the stack pointer is emitted. -/
theorem test_prn_r7 : stepIs (place 0 [0x47, 7]) (fun t => t.out == [244#8] && t.pc == 2#9) = true := by decide

/-- PRN-6: the operand would be at 256. -/
theorem test_prn_at_255_raises :
    stepIs (place 255 [0x47]) (fun t =>
      t.err == ⟨.outOfBoundsAccess .mem, 255, 0x47, 256⟩ && t.out == [] && t.pc == 255#9) = true := by decide

/-- PUSH-2: the pushed value is the decremented stack pointer. -/
theorem test_push_r7 :
    stepIs (place 0 [0x45, 7]) (fun t => t.reg 7 == 0xF3#8 && t.mem.read 0xF3 == 0xF3#8 && t.pc == 2#9) = true := by
  decide

/-- PUSH-3: the stack pointer wraps. -/
theorem test_push_wraps :
    stepIs (placeRegs 16 [0x45, 1] #v[0, 0xAB, 0, 0, 0, 0, 0, 0]) (fun t =>
      t.reg 7 == 0xFF#8 && t.mem.read 0xFF == 0xAB#8 && t.pc == 18#9) = true := by decide

/-- POP-3: the popped byte is incremented in R7. -/
theorem test_pop_r7 :
    stepIs { place 0 [0x46, 7] with
      x := #v[0, 0, 0, 0, 0, 0, 0, 0xF3], mem := [(0, 0x46), (1, 7), (0xF3, 0x20)] } (fun t => t.reg 7 == 0x21#8) =
      true := by decide

/-- POP-6: nothing is written on a bad index. -/
theorem test_pop_bad_index :
    stepIs { place 0 [0x46, 9] with
      x := #v[0, 0, 0, 0, 0, 0, 0, 0xF3], mem := [(0, 0x46), (1, 9), (0xF3, 8)] } (fun t =>
      t.err == ⟨.outOfBoundsAccess .reg, 0, 0x46, 9⟩ && t.reg 7 == 0xF3#8) = true := by decide

/-- HLT-2: at 255, no operand is read and `pc` stays. -/
theorem test_hlt_at_255 : stepIs (place 255 [0x01]) (fun t => t.run == .halted && t.pc == 255#9) = true := by decide

/-- CALL-2: the target is read after the push. -/
theorem test_call_r7 :
    stepIs (place 6 [0x50, 7]) (fun t =>
      t.reg 7 == 0xF3#8 && t.mem.read 0xF3 == 8#8 && t.pc == 0xF3#9 && t.ra == 8#8) = true := by decide

/-- CALL-6: the index check comes before the return address. -/
theorem test_call_at_254_bad_index :
    stepIs (place 254 [0x50, 8]) (fun t => t.err == ⟨.outOfBoundsAccess .reg, 254, 0x50, 8⟩) = true := by decide

/-- RET-4: the stack pointer wraps. -/
theorem test_ret_wraps :
    stepIs { place 16 [0x11] with x := #v[0, 0, 0, 0, 0, 0, 0, 0xFF], mem := [(16, 0x11), (0xFF, 0x40)] } (fun t =>
      t.reg 7 == 0#8 && t.pc == 64#9 && t.ra == 0x40#8) = true := by decide

/-- JMP-3. -/
theorem test_jmp_r7 : stepIs (place 9 [0x54, 7]) (fun t => t.pc == 244#9) = true := by decide

/-- JEQ-1. -/
theorem test_jeq_taken :
    stepIs { placeRegs 12 [0x55, 2] #v[0, 0, 0x20, 0, 0, 0, 0, 0xF4] with fl := 1 } (fun t =>
      t.pc == 32#9 && t.fl == 1#8) = true := by decide

/-- JEQ-5: the index is checked even when not taken. -/
theorem test_jeq_not_taken_bad_index :
    stepIs { place 12 [0x55, 8] with fl := 4 } (fun t => t.err == ⟨.outOfBoundsAccess .reg, 12, 0x55, 8⟩) = true := by
  decide

/-- JNE-3. -/
theorem test_jne_not_taken :
    stepIs { placeRegs 15 [0x56, 2] #v[0, 0, 6, 0, 0, 0, 0, 0xF4] with fl := 1 } (fun t => t.pc == 17#9) = true := by
  decide

/-- JNE-4: taken before any CMP. -/
theorem test_jne_before_any_cmp :
    stepIs (placeRegs 15 [0x56, 2] #v[0, 0, 6, 0, 0, 0, 0, 0xF4]) (fun t => t.pc == 6#9) = true := by decide

/-- DEC-1: an undefined byte at 255 is a decode failure. -/
theorem test_undefined_at_255 :
    stepIs (place 255 [0x00]) (fun t => t.err == ⟨.decodeFailure, 255, 0, 0⟩ && t.pc == 255#9) = true := by decide

/-- DEC-3: fetch beyond memory. -/
theorem test_fetch_at_256 :
    stepIs (place 256 []) (fun t => t.err == ⟨.outOfBoundsAccess .mem, 256, 0, 256⟩ && t.run == .error) = true := by
  decide

/-- DEC-4, DEC-5: a step in a terminal state changes nothing. -/
theorem test_terminal_step (r : RunState) (h : r ≠ .running) :
    step { State.reset with run := r } = .next { State.reset with run := r } := by
  cases r <;> first | rfl | exact absurd rfl h

/-- The word placed at reset is the one the next step runs. -/
theorem test_withFetchWord_runs :
    stepIs (State.reset.withFetchWord 24 0x080082) (fun t => t.reg 0 == 8#8 && t.pc == 3#9) = true := by decide

/-! ### Load and start (rules R25, R146, R147) -/

theorem test_load_reaches_the_last_cell :
    ((portLoad 255 9 Block.reset).map fun b => b.core.mem) = some [(255, 9)] := by decide

theorem test_no_load_after_start : portLoad 0 1 (portStart Block.reset) = none := by decide

theorem test_launch_places_the_image_in_order :
    ((launch [0x82, 0, 8]).map fun s => s.mem) = some [(0, 0x82), (2, 8)] := by decide

/-! ### Memory's canonical form -/

theorem test_memory_write_zero_unlists : Memory.write [(3, 1), (5, 2)] 3 0 = [(5, 2)] := by decide

theorem test_memory_write_keeps_order : Memory.write [(3, 1), (5, 2)] 4 9 = [(3, 1), (4, 9), (5, 2)] := by decide

theorem test_reset_memory_wf : State.reset.mem.wf := by decide

theorem test_wf_refuses_unsorted : ¬ Memory.wf [(5, 1), (3, 1)] := by decide

/-! ### Witnesses: for each statement with hypotheses, values that meet them all -/

theorem witness_DecodeAndEncodeAgree :
    decode [0x82#8, 7#8, 255#8, 1#8] = .ok (.ldi 7 255, [1]) ∧
    [0x82#8, 7#8, 255#8, 1#8] = encode (.ldi 7 255) ++ [1#8] := by decide

theorem witness_ProgramImageHasOneReading :
    [Instr.ldi 7 255, .hlt].flatMap encode = [0x82#8, 7#8, 255#8, 0x01#8] := by decide

theorem witness_TopTwoBitsGiveTheLength :
    decode (0x01#8 :: [0xFF#8]) = .ok (.hlt, [0xFF]) ∧ decode (0xA7#8 :: [7#8, 7#8]) = .ok (.cmp 7 7, []) ∧
    (0xC0#8).extractLsb' 6 2 = 3#2 ∧ (0xFF#8).extractLsb' 6 2 = 3#2 := by
  decide

theorem witness_StepRunsTheDecodedInstruction :
    (place 255 [0x01]).run = .running ∧ decode (place 255 [0x01]).bytesAtPc = .ok (.hlt, []) ∧
    decode (place 253 [0xA2, 7, 8]).bytesAtPc = .ok (.mul 7 8, []) := by
  decide

/-- One running state for each branch, at the boundary of its range. -/
theorem witness_CycleChecksInOrder :
    (place 256 []).run = .running ∧ (place 256 []).pc.toNat = 256 ∧
    dispatch ((place 255 [0xC0]).mem.read 255) = none ∧
    dispatch ((place 255 [0x47]).mem.read 255) = some .prn ∧ dispatch ((place 254 [0x82]).mem.read 254) = some .ldi ∧
    dispatch ((place 254 [0x47, 7]).mem.read 254) = some .prn ∧
    dispatch ((place 253 [0x82, 0, 0]).mem.read 253) = some .ldi := by
  decide

theorem witness_UndefinedByteIsDecodeFailure_first :
    (place 255 [0xC0]).run = .running ∧ (place 255 [0xC0]).pc.toNat < 256 ∧
    ∀ op ∈ Opcode.all, (place 255 [0xC0]).mem.read (place 255 [0xC0]).pc.toNat ≠ op.byte := by
  decide

theorem witness_UndefinedByteIsDecodeFailure_second :
    (place 255 [0xC0]).run = .running ∧
    stepIs (place 255 [0xC0]) (fun t => t.run == .error && t.err.kind == .decodeFailure) = true := by
  decide

theorem witness_TerminalStatesNeverChange :
    ({ State.reset with run := .halted } : State).run = .halted ∧
    ({ State.reset with run := .error } : State).run = .error := ⟨rfl, rfl⟩

theorem witness_RunStateChangesOnlyAsTabled :
    (place 5 [0x01]).run = .running ∧ stepIs (place 5 [0x01]) (fun t => t.run == .halted) = true ∧
    stepIs (place 5 [0x00]) (fun t => t.run == .error) = true ∧
    stepIs { place 5 [0x01] with run := .error } (fun t => t.run == .error) = true := by
  decide

theorem witness_PlacedWordIsTheOneRun :
    (place 253 []).run = .running ∧ (place 253 []).pc.toNat ≤ 253 ∧
    decodeTableWord 24 0x0107A2 = some (.mul 7 1) := by
  decide

theorem witness_MemoryReadsWhatWasWritten : (255 : Nat) < 256 ∧ (256 : Nat) ≤ 256 := by decide

theorem witness_CanonicalMemoryIsUnique :
    Memory.wf [(0, 1), (255, 2)] ∧ ∀ a, a < 256 → Memory.read [(0, 1), (255, 2)] a = Memory.read [(0, 1), (255, 2)] a :=
  ⟨by decide, fun _ _ => rfl⟩

theorem witness_LdiLoadsTheImmediate : (6 : Fin 8) ≠ 7 := by decide

theorem witness_CallPushesTheReturnAddress : (place 253 [0x50, 1]).pc.toNat + 2 ≤ 255 := by decide

theorem witness_RegisterBytesAbove7Raise : 7 < (8#8).toNat ∧ 7 < (255#8).toNat := by decide

theorem witness_OnlyLdiToR7IsProtected :
    (place 0 [0x82, 7, 0]).run = .running ∧
    stepIs (place 0 [0x82, 7, 0]) (fun t => t.run == .error && t.err.kind == .protectedRegisterWrite) = true := by
  decide

theorem witness_CallAtTheTopRaises : 255 < (place 254 [0x50, 1]).pc.toNat + 2 := by decide

/-- One instruction of each group of the register and memory frames, with a register and a cell outside it. -/
theorem witness_frames :
    (∃ t, exec (.ldi 0 8) State.reset = .next t) ∧ (1 : Fin 8).val ≠ (0#8).toNat ∧
    (∃ t, exec (.pop 0) State.reset = .next t) ∧ (1 : Fin 8) ≠ 7 ∧
    (∃ t, exec (.push 0) State.reset = .next t) ∧ (0xF4 : Nat) ≠ State.reset.decSp.sp.toNat ∧
    (∃ t, exec (.prn 0) State.reset = .next t) ∧ (∃ t, exec (.cmp 0 1) State.reset = .next t) ∧
    ∃ t, exec (.prn 8) State.reset = .next t := by
  refine ⟨⟨_, rfl⟩, by decide, ⟨_, rfl⟩, by decide, ⟨_, rfl⟩, by decide, ⟨_, rfl⟩, ⟨_, rfl⟩, ⟨_, rfl⟩⟩

theorem witness_AdvanceIsTheInstructionLength :
    (place 253 [0x82, 1, 2]).run = .running ∧ decode (place 253 [0x82, 1, 2]).bytesAtPc = .ok (.ldi 1 2, []) ∧
    stepIs (place 253 [0x82, 1, 2]) (fun t => t.run == .running && t.pc == 256#9) = true ∧
    decode (place 254 [0x45, 1]).bytesAtPc = .ok (.push 1, []) ∧
    stepIs (place 254 [0x45, 1]) (fun t => t.run == .running && t.pc == 256#9) = true := by
  decide

theorem witness_ErrorsArePrecise :
    (place 256 []).run = .running ∧ stepIs (place 256 []) (fun t => t.run == .error) = true ∧
    (place 256 []).pc.toNat ≤ 256 ∧ stepIs (place 255 [0x47]) (fun t => t.run == .error) = true := by
  decide

theorem witness_ErrorIsFinalAndRecordedOnce :
    ∃ t, Host.Core.run Sys2Proof.core 1 State.reset = .next t ∧ t.run = .error := ⟨_, rfl, rfl⟩

theorem witness_LaunchIsResetWithTheImage :
    (List.replicate 256 (1 : Byte)).length ≤ 256 ∧ ([] : List Byte).length ≤ 256 :=
  ⟨by rw [List.length_replicate], by decide⟩

/-- A block in each case: after reset, after start, and in a terminal state. -/
theorem witness_LoadOnlyBetweenResetAndStart :
    Block.reset.phase = .loading ∧ Block.reset.core.run = .running ∧ Block.reset.core.mem.wf ∧
    (portStart Block.reset).phase = .started ∧
    ({ Block.reset with core := { State.reset with run := .halted } } : Block).core.run ≠ .running := by
  decide

theorem witness_CyclesRunOnlyAfterStart : Block.reset.phase = .loading ∧ (portStart Block.reset).phase = .started := by
  decide

theorem witness_StackIsLastInFirstOut :
    (0 : Fin 8) ≠ 7 ∧ (6 : Fin 8) ≠ 7 ∧ (1 : Fin 8) ≠ 7 ∧ (2 : Fin 8) ≠ 7 ∧ (1 : Fin 8) ≠ 2 := by decide

theorem witness_RetResumesAfterTheCall :
    (place 253 [0x50, 1]).pc.toNat + 2 ≤ 255 ∧
    ∃ t u : State, exec (.call (regByte 1)) (place 253 [0x50, 1]) = .next t ∧ u.x[7] = t.x[7] ∧
      u.mem.read u.x[7].toNat = t.mem.read t.x[7].toNat := by
  refine ⟨by decide, _, _, rfl, rfl, rfl⟩

theorem witness_LdiThenPrnEmitsTheValue : (0 : Fin 8) ≠ 7 := by decide

theorem witness_OnlyTheEqualFlagIsRead :
    (0b111#8).getLsbD 0 = ({ State.reset with fl := 1 } : State).fl.getLsbD 0 ∧
    (0b110#8).getLsbD 0 = State.reset.fl.getLsbD 0 := by
  decide

theorem witness_InvariantKeptByEveryStep : State.reset.Inv ∧ ∃ t, step State.reset = .next t ∧ t.run = .error :=
  ⟨⟨by decide, by decide, by decide, by decide, by decide, by decide⟩, _, rfl, rfl⟩

end Sys2Proof.Tests
end

section
/-! PROOFS about the run state (spec/10_state.md rule R18): when the fetch reads HLT, what executing an instruction does to
`run`, and how a cycle that began in `running` ends. -/

namespace Sys2Proof.Machine

/-- The fetch reads HLT exactly when its byte stands at an address of memory: HLT has no operand byte whose fetch could
still fail. -/
theorem State.fetchInstr_eq_hlt_iff (s : State) :
    s.fetchInstr = .ok .hlt ↔ s.pc.toNat < 256 ∧ s.mem.read s.pc.toNat = Opcode.hlt.byte := by
  constructor
  · intro h
    obtain ⟨hbyte, hroom⟩ := State.fetchInstr_ok h
    have hlen : Opcode.hlt.length = 1 := Opcode.length_eq .hlt
    simp only [Instr.opcode, hlen, Config.memSize] at hroom
    exact ⟨by omega, hbyte⟩
  · rintro ⟨hpc, hbyte⟩
    have hcount : Opcode.hlt.operandCount = 0 := Opcode.operandCount_eq .hlt
    simp [State.fetchInstr_eq, hpc, hbyte, hcount, Opcode.assemble]

/-- HLT completes in every state, in `halted` (rule R105). -/
theorem exec_hlt (s : State) : exec .hlt s = .next (s.setRun .halted) := rfl

/-- Of the instructions that complete, HLT alone changes the run state. -/
theorem Completes.run_eq {i : Instr} {s t : State} (h : Completes i s t) (hi : i ≠ .hlt) : t.run = s.run := by
  cases i with
  | hlt => exact absurd rfl hi
  | ret => subst h; rfl
  | push a | pop a | prn a | jmp a | jeq a | jne a => obtain ⟨_, _, rfl⟩ := h; rfl
  | call a | ldi a v => obtain ⟨_, _, _, rfl⟩ := h; rfl
  | mul a b | cmp a b => obtain ⟨_, _, _, _, rfl⟩ := h; rfl

/-- An instruction other than HLT raises from the state it began in, or leaves the run state. -/
theorem exec_raises_or_keeps_run {i : Instr} (hi : i ≠ .hlt) {s t : State} (h : exec i s = .next t) :
    (∃ c : Cause, t = s.raise c) ∨ t.run = s.run := by
  have next_eq {u : State} (hu : exec i s = .next u) : t = u := Host.Outcome.next.inj (h.symm.trans hu)
  rcases exec_cases i s with ⟨_, _, hu⟩ | ⟨_, _, hu⟩ | ⟨_, _, _, hu⟩ | ⟨u, hu, hc⟩
  · exact .inl ⟨_, next_eq hu⟩
  · exact .inl ⟨_, next_eq hu⟩
  · exact .inl ⟨_, next_eq hu⟩
  · exact .inr (next_eq hu ▸ hc.run_eq hi)

/-- How a cycle that began in `running` ends: halted after fetching HLT; else in a raise from its first state, or still
running. -/
theorem step_of_running_cases {s t : State} (hs : s.run = .running) (h : step s = .next t) :
    (s.fetchInstr = .ok .hlt ∧ t.run = .halted) ∨
      (s.fetchInstr ≠ .ok .hlt ∧ ((∃ c : Cause, t = s.raise c) ∨ t.run = .running)) := by
  rcases step_cases s with ⟨hne, _⟩ | ⟨_, c, hf, hu⟩ | ⟨_, i, hf, hu⟩
  · exact absurd hs hne
  · exact .inr ⟨by simp [hf], .inl ⟨c, Host.Outcome.next.inj (h.symm.trans hu)⟩⟩
  · have he : exec i s = .next t := hu.symm.trans h
    by_cases hi : i = .hlt
    · subst hi
      obtain rfl := Host.Outcome.next.inj ((exec_hlt s).symm.trans he)
      exact .inl ⟨hf, rfl⟩
    · exact .inr ⟨by simpa [hf] using hi, hs ▸ exec_raises_or_keeps_run hi he⟩

/-- In a terminal state a step changes nothing (rule R78). -/
theorem step_of_terminal {s t : State} (hs : s.Terminal) (h : step s = .next t) : t = s := by
  rcases step_cases s with ⟨_, hu⟩ | ⟨hr, _⟩ | ⟨hr, _⟩
  · exact Host.Outcome.next.inj (h.symm.trans hu)
  · exact absurd hr hs
  · exact absurd hr hs

/-- Settles O12: of the three ends of a cycle in `step_of_running_cases` only the first is `halted`, and only a raise is
`error`. -/
theorem runStateChangesOnlyAsTabled : Obligations.RunStateChangesOnlyAsTabled := by
  refine ⟨rfl, fun s t h => ⟨fun hs => ?_, fun hs => step_of_terminal hs h⟩⟩
  have not_raise (hr : t.run ≠ .error) : ¬ ∃ c : Cause, t = s.raise c := by
    rintro ⟨c, rfl⟩
    exact hr rfl
  rw [← State.fetchInstr_eq_hlt_iff]
  rcases step_of_running_cases hs h with ⟨hf, hr⟩ | ⟨hf, ⟨c, rfl⟩ | hr⟩
  · exact ⟨by simp [hf, hr], by simp [hr, not_raise]⟩
  · exact ⟨by simp [hf], by simp⟩
  · exact ⟨by simp [hf, hr], by simp [hr, not_raise]⟩

end Sys2Proof.Machine
end

section
/-! PROOFS about memory access (spec/20_memory.md rule R30): the write of the contract, beside `State.memRead_of_lt` and
`State.memRead_of_ge` for the read. -/

namespace Sys2Proof.Machine

theorem State.memWrite_of_lt (s : State) {ir v : Byte} {a : Nat} (h : a < Config.memSize) :
    s.memWrite ir a v = .ok (s.setMem (s.mem.write a v)) := if_pos h

theorem State.memWrite_of_ge (s : State) {ir v : Byte} {a : Nat} (h : Config.memSize ≤ a) :
    s.memWrite ir a v = .error (Cause.memBounds ir a) := if_neg (Nat.not_lt.2 h)

/-- Settles O17: below `MEM_SIZE` the write leaves the state with `Memory.write` applied, whose reads are
`Memory.read_write_self` and `Memory.read_write_of_ne`; from `MEM_SIZE` on both accesses answer the bounds cause. -/
theorem memoryReadsWhatWasWritten : Obligations.MemoryReadsWhatWasWritten := by
  intro s ir v a
  constructor
  · intro ha
    refine ⟨s.memRead_of_lt ha, s.setMem (s.mem.write a v), s.memWrite_of_lt ha, rfl, ?_, fun b hb => ?_⟩
    · rw [State.memRead_of_lt _ ha, State.setMem_mem, Memory.read_write_self]
    · exact Memory.read_write_of_ne s.mem hb.symm v
  · intro ha
    exact ⟨s.memRead_of_ge ha, s.memWrite_of_ge ha⟩

end Sys2Proof.Machine
end

section
/-! PROOFS about the encoding (spec/30_encoding.md rules R52 and R63): what `assemble` and `encode` make of a handler and
its operand bytes, and what a successful decode has read. -/

namespace Sys2Proof

/-- The instruction assembled from two bytes holds as many of them as its handler has operands. -/
theorem Instr.operandBytes_assemble (op : Opcode) (a b : Byte) :
    (op.assemble a b).operandBytes = [a, b].take op.operandCount := by
  rw [op.operandCount_eq]
  cases op <;> rfl

theorem Instr.operandBytes_length (i : Instr) : i.operandBytes.length = i.opcode.operandCount := by
  rw [Opcode.operandCount_eq]
  cases i <;> rfl

theorem encode_length (i : Instr) : (encode i).length = i.opcode.length :=
  Laws.EncodedLength.of_operandBytes i.operandBytes_length

/-- Rule R63 read from the decoder: the bytes taken are the encoding of the instruction. -/
theorem eq_encode_append_of_decode {bytes rest : List Byte} {i : Instr} (h : decode bytes = .ok (i, rest)) :
    bytes = encode i ++ rest := by
  cases bytes with
  | nil => cases h
  | cons ir more =>
    cases hd : dispatch ir with
    | none => simp [decode, hd] at h
    | some op =>
      obtain rfl := dispatch_eq_some.1 hd
      simp only [decode, hd] at h
      split at h
      case h_4 => cases h
      -- Zero, one or two operand bytes are there: the same argument for each count.
      all_goals
        next hcount =>
          cases h
          simp [encode, Instr.operandBytes_assemble, hcount]

/-- A byte without a handler ends the decode, whatever follows it (rules R58, R72). -/
theorem decode_of_dispatch_none {ir : Byte} (h : dispatch ir = none) (more : List Byte) :
    decode (ir :: more) = .error (.undefinedByte ir) := by
  simp [decode, h]

/-- No handler's byte announces more operand bytes than an instruction can have (rule R52). -/
theorem dispatch_eq_none_of_maxOperands_lt {ir : Byte} (h : Config.maxOperands < operandCountOf ir) :
    dispatch ir = none := by
  refine Option.eq_none_iff_forall_ne_some.2 fun op hd => ?_
  obtain rfl := dispatch_eq_some.1 hd
  exact absurd op.operandCount_le (Nat.not_le.2 h)

/-- Settles O5: a decoded sequence is `encode i ++ rest`, whose first byte is the handler's and whose operand bytes are as
many as that byte's top two bits say; no handler's byte has 3 there. -/
theorem topTwoBitsGiveTheLength : Obligations.TopTwoBitsGiveTheLength := by
  refine ⟨fun ir more i rest h => ?_, fun ir more h3 => ?_⟩
  · have hbytes := eq_encode_append_of_decode h
    obtain rfl : ir = i.opcode.byte := (List.cons.inj hbytes).1
    have hlen : (encode i).length = 1 + i.opcode.operandCount := encode_length i
    have hmax : i.opcode.operandCount ≤ 2 := i.opcode.operandCount_le
    refine ⟨?_, i.operandBytes_length, by omega, by omega⟩
    rw [hbytes, List.length_append, hlen]
    rfl
  · have hcount : operandCountOf ir = 3 := congrArg BitVec.toNat h3
    exact decode_of_dispatch_none (dispatch_eq_none_of_maxOperands_lt (by rw [hcount]; decide)) more

end Sys2Proof
end

section
/-! PROOFS about runs from a terminal state (spec/40_engine_cycle.md rule R78). -/

namespace Sys2Proof.Machine

/-- A state that a step of a core answers unchanged is answered unchanged by every run. -/
theorem run_of_step_eq_self {M : Host.Core} {s : M.State} (h : M.step s = .next s) (k : Nat) :
    M.run k s = .next s := by
  induction k with
  | zero => rfl
  | succ k ih => simpa only [Host.Core.run, h] using ih

/-- In a terminal state a step answers that state: `step_of_terminal` with the answer's existence. -/
theorem step_eq_self_of_terminal {s : State} (hs : s.Terminal) : step s = .next s := by
  rcases step_cases s with ⟨_, hu⟩ | ⟨hr, _⟩ | ⟨hr, _⟩
  · exact hu
  · exact absurd hr hs
  · exact absurd hr hs

theorem State.terminal_of_halted_or_error {s : State} (h : s.run = .halted ∨ s.run = .error) : s.Terminal := by
  rcases h with h | h <;> simp [h]

/-- Settles O10: a terminal state is a fixed point of `step`, so of any number of steps. -/
theorem terminalStatesNeverChange : Obligations.TerminalStatesNeverChange := by
  intro s k h
  have hstep : step s = .next s := step_eq_self_of_terminal (State.terminal_of_halted_or_error h)
  exact run_of_step_eq_self (M := Sys2Proof.core) hstep k

end Sys2Proof.Machine
end

section
/-! PROOFS about the ALU's product (spec/41_alu.md rule R87): MUL is the product of `BitVec`, so what the library proves of
that product holds of MUL. -/

namespace Sys2Proof.Machine

@[simp] theorem alu_mul (p q : Byte) : alu .mul p q = .value (aluMul p q) := rfl

theorem aluMul_eq_mul (p q : Byte) : aluMul p q = p * q := BitVec.mul_def.symm

theorem aluMul_toNat (p q : Byte) : (aluMul p q).toNat = p.toNat * q.toNat % 256 := BitVec.toNat_ofNat _ _

theorem aluMul_comm (p q : Byte) : aluMul p q = aluMul q p := by
  simp only [aluMul_eq_mul, BitVec.mul_comm]

@[simp] theorem aluMul_zero (p : Byte) : aluMul p 0 = 0 := by
  rw [aluMul_eq_mul, BitVec.ofNat_eq_ofNat, BitVec.mul_zero]

@[simp] theorem aluMul_one (p : Byte) : aluMul p 1 = p := by
  rw [aluMul_eq_mul, BitVec.ofNat_eq_ofNat, BitVec.mul_one]

/-- The low 8 bits do not depend on the reading of the operands: unsigned in `aluMul`, signed on the right. -/
theorem aluMul_eq_ofInt (p q : Byte) : aluMul p q = BitVec.ofInt 8 (p.toInt * q.toInt) := by
  rw [aluMul_eq_mul, BitVec.ofInt_mul, BitVec.ofInt_toInt, BitVec.ofInt_toInt]

/-- Settles O14: each general clause is a property of the product of `BitVec`, carried over by `aluMul_eq_mul`; the five
examples are evaluated. -/
theorem aluMulIsTheLowByteOfTheProduct : Obligations.AluMulIsTheLowByteOfTheProduct := by
  refine ⟨fun p q => ⟨aluMul p q, alu_mul p q, aluMul_toNat p q, ?_, aluMul_eq_ofInt p q⟩, fun p => ?_, ?_⟩
  · rw [alu_mul, aluMul_comm]
  · rw [alu_mul, alu_mul, aluMul_zero, aluMul_one]
    exact ⟨rfl, rfl⟩
  · decide

end Sys2Proof.Machine
end

section
/-! PROOFS about the ALU's comparison (spec/41_alu.md rules R88 and R90): what the three flag readers see in a packed flags
register, and so in the answer of COMPARE. -/

namespace Sys2Proof.Machine

@[simp] theorem alu_compare (p q : Byte) : alu .compare p q = .flags (compareFlags p q) := rfl

/-! ### The flag readers against `packFlags` -/

@[simp] theorem flagL_packFlags (l g e : Bool) : flagL (packFlags l g e) = l := by
  revert l g e; decide

@[simp] theorem flagG_packFlags (l g e : Bool) : flagG (packFlags l g e) = g := by
  revert l g e; decide

@[simp] theorem flagE_packFlags (l g e : Bool) : flagE (packFlags l g e) = e := by
  revert l g e; decide

/-! ### The flags of a comparison -/

theorem flagL_compareFlags (p q : Byte) : flagL (compareFlags p q) = true ↔ p.toNat < q.toNat := by
  simp [compareFlags]

theorem flagG_compareFlags (p q : Byte) : flagG (compareFlags p q) = true ↔ q.toNat < p.toNat := by
  simp [compareFlags]

theorem flagE_compareFlags (p q : Byte) : flagE (compareFlags p q) = true ↔ p = q := by
  simp [compareFlags, BitVec.toNat_inj]

/-- Of the three flags exactly one is set: `compareFlags_cases` with each value in its packed form. -/
theorem compareFlags_eq_packFlags_single (p q : Byte) :
    compareFlags p q = packFlags true false false ∨ compareFlags p q = packFlags false true false ∨
      compareFlags p q = packFlags false false true := by
  rcases compareFlags_cases p q with ⟨_, h⟩ | ⟨_, h⟩ | ⟨_, h⟩
  · exact .inl h
  · exact .inr (.inl h)
  · exact .inr (.inr h)

theorem compareFlags_self (p : Byte) : compareFlags p p = packFlags false false true := by
  simp [compareFlags]

/-- Settles O15: the three readers see the three orders in `compareFlags`, and `compareFlags_cases` leaves one flag set. -/
theorem aluCompareSetsExactlyOneFlag : Obligations.AluCompareSetsExactlyOneFlag := by
  refine ⟨fun p q => ⟨compareFlags p q, alu_compare p q, flagL_compareFlags p q, flagG_compareFlags p q,
    flagE_compareFlags p q, compareFlags_eq_packFlags_single p q⟩, by decide, fun p => ?_⟩
  rw [alu_compare, compareFlags_self]

end Sys2Proof.Machine
end

section
/-! PROOFS about the error record (spec/60_exceptions.md rule R128): runs of a core compose, completion keeps `err`, and
a step that writes `err` is a raise from `running`. -/

namespace Sys2Proof.Machine

/-- A run of `k + m` steps that reaches `t` after `k` of them is the run of `m` steps from `t`. -/
theorem run_add_of_run_eq_next {M : Host.Core} {s t : M.State} {k : Nat} (h : M.run k s = .next t) (m : Nat) :
    M.run (k + m) s = M.run m t := by
  induction k generalizing s with
  | zero =>
    obtain rfl : s = t := Host.Outcome.next.inj h
    rw [Nat.zero_add]
  | succ k ih =>
    rw [Nat.succ_add]
    cases hu : M.step s with
    | next u =>
      simp only [Host.Core.run, hu] at h ⊢
      exact ih h
    | fault r | refused r => simp [Host.Core.run, hu] at h

/-- No instruction that completes writes the error record. -/
theorem Completes.err_eq {i : Instr} {s t : State} (h : Completes i s t) : t.err = s.err := by
  cases i with
  | hlt | ret => subst h; rfl
  | push a | pop a | prn a | jmp a | jeq a | jne a => obtain ⟨_, _, rfl⟩ := h; rfl
  | call a | ldi a v => obtain ⟨_, _, _, rfl⟩ := h; rfl
  | mul a b | cmp a b => obtain ⟨_, _, _, _, rfl⟩ := h; rfl

/-- An instruction raises from the state it began in, or leaves the error record. -/
theorem exec_raises_or_keeps_err {i : Instr} {s t : State} (h : exec i s = .next t) :
    (∃ c : Cause, t = s.raise c) ∨ t.err = s.err := by
  have next_eq {u : State} (hu : exec i s = .next u) : t = u := Host.Outcome.next.inj (h.symm.trans hu)
  rcases exec_cases i s with ⟨_, _, hu⟩ | ⟨_, _, hu⟩ | ⟨_, _, _, hu⟩ | ⟨u, hu, hc⟩
  · exact .inl ⟨_, next_eq hu⟩
  · exact .inl ⟨_, next_eq hu⟩
  · exact .inl ⟨_, next_eq hu⟩
  · exact .inr (next_eq hu ▸ hc.err_eq)

/-- A step keeps the error record, or it began in `running` and raised. -/
theorem step_keeps_err_or_raises {s t : State} (h : step s = .next t) :
    t.err = s.err ∨ (s.run = .running ∧ ∃ c : Cause, t = s.raise c) := by
  rcases step_cases s with ⟨hs, _⟩ | ⟨hs, c, _, hu⟩ | ⟨hs, i, _, hu⟩
  · exact .inl (congrArg State.err (step_of_terminal hs h))
  · exact .inr ⟨hs, c, Host.Outcome.next.inj (h.symm.trans hu)⟩
  · rcases exec_raises_or_keeps_err (hu.symm.trans h) with hraise | hkeep
    · exact .inr ⟨hs, hraise⟩
    · exact .inl hkeep

/-- Settles O39: the rest of a run from an error state is idle (`terminalStatesNeverChange`), and a step that writes
`err` is a raise, so enters the error state. -/
theorem errorIsFinalAndRecordedOnce : Obligations.ErrorIsFinalAndRecordedOnce := by
  refine ⟨fun s t k m hrun herr => ?_, fun s t h => ?_, fun _ => ⟨rfl, rfl⟩⟩
  · rw [run_add_of_run_eq_next hrun]
    exact terminalStatesNeverChange t m (.inr herr)
  · rcases step_keeps_err_or_raises h with hkeep | ⟨hs, c, rfl⟩
    · exact .inl hkeep
    · exact .inr ⟨hs, s.raise_run c⟩

end Sys2Proof.Machine
end

section
/-! PROOFS about the launch state (spec/70_reset_and_hazards.md rule R147): what the memory of a loaded image reads as. -/

namespace Sys2Proof.Machine

/-- An image written from cell 0 into an empty memory reads, in every cell, as the image padded with zeros. -/
theorem Memory.read_writeBytes_nil (image : List Byte) {a : Nat} (ha : a < Config.memSize) :
    (Memory.writeBytes [] 0 image).read a = image.getD a Memory.unlisted := by
  rw [Memory.read_writeBytes]
  by_cases hlen : a < image.length
  · rw [dif_pos ⟨Nat.zero_le a, by omega, ha⟩, List.getD_eq_getElem _ _ hlen]
    rfl
  · rw [dif_neg (by omega), List.getD_eq_default _ _ (Nat.not_lt.1 hlen), Memory.read_nil]

/-- Settles O42: by `launch_eq` the launch state is reset with the image written from cell 0 into its empty memory. -/
theorem launchIsResetWithTheImage : Obligations.LaunchIsResetWithTheImage := fun image hle =>
  ⟨State.reset.setMem (Memory.writeBytes [] 0 image), launch_eq image hle, rfl,
    Memory.wf_writeBytes Memory.wf_nil 0 image, fun _ ha => Memory.read_writeBytes_nil image ha⟩

end Sys2Proof.Machine
end

section
/-! PROOFS about the encoding (spec/30_encoding.md rules R56 to R58 and R63): the decoder reads an encoding back, so a
byte sequence has one reading; and what the adopted byte values are. -/

namespace Sys2Proof

/-- Rule R63 read from the encoder; with `eq_encode_append_of_decode` the two directions of one procedure. -/
theorem decode_encode_append (i : Instr) (rest : List Byte) : decode (encode i ++ rest) = .ok (i, rest) := by
  -- The decoder takes as many bytes as the handler has operands, and `encode` has laid down just these.
  have hcount : i.opcode.operandCount = i.operandBytes.length := i.operandBytes_length.symm
  cases i <;> simp_all [decode, encode, Instr.opcode, Instr.operandBytes, Opcode.assemble]

/-- Settles O1: a successful decode has read an encoding, and every encoding is read back. -/
theorem decodeAndEncodeAgree : Obligations.DecodeAndEncodeAgree := fun _ i rest =>
  ⟨eq_encode_append_of_decode, fun h => h ▸ decode_encode_append i rest⟩

theorem encode_append_inj {i j : Instr} {xs ys : List Byte} (h : encode i ++ xs = encode j ++ ys) : i = j ∧ xs = ys := by
  have hdecode : decode (encode i ++ xs) = .ok (j, ys) := h ▸ decode_encode_append j ys
  rw [decode_encode_append] at hdecode
  exact Prod.mk.inj (Except.ok.inj hdecode)

/-- Settles O2, by induction on the first list: the two images begin with the same instruction. -/
theorem programImageHasOneReading : Obligations.ProgramImageHasOneReading := by
  intro p
  induction p with
  | nil =>
    intro q h
    cases q with
    | nil => rfl
    | cons j q => simp [encode] at h
  | cons i p ih =>
    intro q h
    cases q with
    | nil => simp [encode] at h
    | cons j q =>
      obtain ⟨rfl, hrest⟩ := encode_append_inj h
      rw [ih q hrest]

/-- Settles O3: each word is the encoding of its instruction. -/
theorem writtenOutWordsDecode : Obligations.WrittenOutWordsDecode :=
  ⟨decode_encode_append .hlt [], decode_encode_append .ret [], decode_encode_append (.push 1) [],
    decode_encode_append (.pop 2) [], decode_encode_append (.prn 3) [], decode_encode_append (.call 4) [],
    decode_encode_append (.jmp 5) [], decode_encode_append (.jeq 6) [], decode_encode_append (.jne 7) [],
    decode_encode_append (.ldi 1 240) [], decode_encode_append (.mul 2 3) [], decode_encode_append (.cmp 4 7) []⟩

theorem dispatch_eq_none_iff {ir : Byte} : dispatch ir = none ↔ ∀ op : Opcode, ir ≠ op.byte := by
  simp only [Option.eq_none_iff_forall_ne_some, ne_eq, dispatch_eq_some]

theorem Opcode.mem_all (op : Opcode) : op ∈ Opcode.all := by
  cases op <;> decide

/-- The numbers of the bytes that have a handler are those of the twelve handlers' bytes. -/
theorem definedBytes_perm :
    ((List.range 256).filter fun n => (dispatch (BitVec.ofNat 8 n)).isSome).Perm
      (Opcode.all.map fun op => op.byte.toNat) := by
  refine (List.perm_ext_iff_of_nodup (List.nodup_range.filter _) (by decide)).2 fun n => ?_
  simp only [List.mem_filter, List.mem_range, Option.isSome_iff_exists, dispatch_eq_some, List.mem_map, Opcode.mem_all,
    true_and]
  constructor
  · rintro ⟨hn, op, hop⟩
    exact ⟨op, by rw [← hop, BitVec.toNat_ofNat, Nat.mod_eq_of_lt hn]⟩
  · rintro ⟨op, rfl⟩
    exact ⟨op.byte.isLt, op, BitVec.ofNat_toNat ..⟩

/-- Settles O4: the dispatch table is `Opcode.byte` read backwards, and 256 bytes less the twelve are undefined. -/
theorem twelveBytesAreDefined : Obligations.TwelveBytesAreDefined := by
  refine ⟨fun _ _ => dispatch_eq_some, ?_, by decide⟩
  have hdefined : ((List.range 256).filter fun n => (dispatch (BitVec.ofNat 8 n)).isSome).length = 12 :=
    definedBytes_perm.length_eq
  have hsplit := List.length_eq_length_filter_add (l := List.range 256) fun n => (dispatch (BitVec.ofNat 8 n)).isSome
  simp only [List.length_range, Option.not_isSome] at hsplit
  omega

/-- Settles O6: no byte is used twice, and the constraints on its bits are evaluated for each handler. -/
theorem adoptedBytesMeetTheConstraints : Obligations.AdoptedBytesMeetTheConstraints :=
  ⟨fun _ _ => Opcode.byte_injective, fun op => by cases op <;> decide⟩

end Sys2Proof
end

section
/-! PROOFS about the cycle before the handler (spec/40_engine_cycle.md rules R70 to R73; spec/60_exceptions.md rule R126):
the fetch in each of its four cases, and its agreement with the decoder on the bytes at `pc`. -/

namespace Sys2Proof

/-- Operand bytes that the handler does not have are not looked at (rule R53). -/
theorem Opcode.assemble_ite (op : Opcode) (a b : Byte) :
    (op.assemble (if 1 ≤ op.operandCount then a else 0) (if 2 ≤ op.operandCount then b else 0)) = op.assemble a b := by
  rw [op.operandCount_eq]
  cases op <;> rfl

/-- A handler's byte and as many operand bytes as it has decode to the assembled instruction. -/
theorem decode_byte_take_append (op : Opcode) (a b : Byte) (rest : List Byte) :
    decode (op.byte :: ([a, b].take op.operandCount ++ rest)) = .ok (op.assemble a b, rest) := by
  have h := decode_encode_append (op.assemble a b) rest
  rwa [encode, Instr.opcode_assemble, Instr.operandBytes_assemble] at h

namespace Machine

variable {s : State}

/-! ### The fetch -/

theorem State.fetchInstr_of_le_pc (h : Config.memSize ≤ s.pc.toNat) :
    s.fetchInstr = .error (Cause.memBounds 0 s.pc.toNat) := by
  rw [State.fetchInstr_eq, if_pos h]

theorem State.fetchInstr_of_undefined (hpc : s.pc.toNat < Config.memSize)
    (hd : dispatch (s.mem.read s.pc.toNat) = none) :
    s.fetchInstr = .error (Cause.undefinedByte (s.mem.read s.pc.toNat)) := by
  rw [State.fetchInstr_eq, if_neg (Nat.not_le.2 hpc), hd]

/-- An operand byte is missing at the top of memory: the first missing one is at `MEM_SIZE`. -/
theorem State.fetchInstr_of_overrun {op : Opcode} (hpc : s.pc.toNat < Config.memSize)
    (hd : dispatch (s.mem.read s.pc.toNat) = some op) (hover : Config.memSize < s.pc.toNat + 1 + op.operandCount) :
    s.fetchInstr = .error (Cause.memBounds op.byte Config.memSize) := by
  rw [State.fetchInstr_eq, if_neg (Nat.not_le.2 hpc), hd]
  have hle : op.operandCount ≤ 2 := op.operandCount_le
  by_cases h1 : Config.memSize ≤ s.pc.toNat + 1
  · have htop : s.pc.toNat + 1 = Config.memSize := by omega
    have hcount : 1 ≤ op.operandCount := by omega
    simp [htop, hcount]
  · have htop : s.pc.toNat + 2 = Config.memSize := by omega
    have hcount : 2 ≤ op.operandCount := by omega
    simp [h1, htop, hcount]

theorem State.fetchInstr_of_fits {op : Opcode} (hd : dispatch (s.mem.read s.pc.toNat) = some op)
    (hfits : s.pc.toNat + 1 + op.operandCount ≤ Config.memSize) :
    s.fetchInstr = .ok (op.assemble (s.mem.read (s.pc.toNat + 1)) (s.mem.read (s.pc.toNat + 2))) := by
  rw [State.fetchInstr_eq, if_neg (by omega), hd]
  simp only
  rw [if_neg (by omega), if_neg (by omega), Opcode.assemble_ite]

/-! ### The step of a running machine -/

theorem step_of_fetchInstr_error {c : Cause} (hrun : s.run = .running) (hf : s.fetchInstr = .error c) :
    step s = .next (s.raise c) := by
  simp [step, hrun, cycle, hf]

theorem step_of_fetchInstr_ok {i : Instr} (hrun : s.run = .running) (hf : s.fetchInstr = .ok i) :
    step s = exec i s := by
  simp [step, hrun, cycle, hf]

/-- Settles O8: one branch for each of the four cases of the fetch. -/
theorem cycleChecksInOrder : Obligations.CycleChecksInOrder := by
  intro s hrun
  split
  next hpc =>
    rw [step_of_fetchInstr_error hrun (State.fetchInstr_of_le_pc hpc)]
    simp [State.raise, Cause.memBounds]
  next hpc =>
    have hpc : s.pc.toNat < Config.memSize := Nat.not_le.1 hpc
    split
    next hd => exact step_of_fetchInstr_error hrun (State.fetchInstr_of_undefined hpc hd)
    next op hd =>
      split
      next hover => exact step_of_fetchInstr_error hrun (State.fetchInstr_of_overrun hpc hd hover)
      next hfits => exact step_of_fetchInstr_ok hrun (State.fetchInstr_of_fits hd (Nat.not_lt.1 hfits))

/-! ### The bytes at `pc` and the decoder -/

theorem State.bytesAtPc_eq_take (s : State) :
    s.bytesAtPc =
      [s.mem.read s.pc.toNat, s.mem.read (s.pc.toNat + 1), s.mem.read (s.pc.toNat + 2)].take
        (Config.memSize - s.pc.toNat) := by
  have hrange : List.range (Config.maxOperands + 1) = [0, 1, 2] := rfl
  rw [State.bytesAtPc, hrange]
  by_cases h0 : s.pc.toNat < Config.memSize
  · by_cases h1 : s.pc.toNat + 1 < Config.memSize
    · by_cases h2 : s.pc.toNat + 2 < Config.memSize
      · rw [List.take_of_length_le (show 3 ≤ Config.memSize - s.pc.toNat by omega)]
        simp [h0, h1, h2]
      · simp [h0, h1, h2, show Config.memSize - s.pc.toNat = 2 by omega]
    · simp [h0, h1, show ¬ s.pc.toNat + 2 < Config.memSize by omega, show Config.memSize - s.pc.toNat = 1 by omega]
  · simp [h0, show ¬ s.pc.toNat + 1 < Config.memSize by omega, show ¬ s.pc.toNat + 2 < Config.memSize by omega,
      show Config.memSize - s.pc.toNat = 0 by omega]

theorem State.bytesAtPc_of_lt (hpc : s.pc.toNat < Config.memSize) :
    s.bytesAtPc =
      s.mem.read s.pc.toNat ::
        [s.mem.read (s.pc.toNat + 1), s.mem.read (s.pc.toNat + 2)].take (Config.memSize - (s.pc.toNat + 1)) := by
  rw [State.bytesAtPc_eq_take, show Config.memSize - s.pc.toNat = Config.memSize - (s.pc.toNat + 1) + 1 by omega,
    List.take_succ_cons]

theorem State.bytesAtPc_of_le_pc (h : Config.memSize ≤ s.pc.toNat) : s.bytesAtPc = [] := by
  rw [State.bytesAtPc_eq_take, Nat.sub_eq_zero_of_le h, List.take_zero]

/-- What the fetch reads, the decoder reads from the bytes at `pc`. -/
theorem State.decode_bytesAtPc_of_fetchInstr {i : Instr} (h : s.fetchInstr = .ok i) :
    ∃ rest, decode s.bytesAtPc = .ok (i, rest) := by
  obtain ⟨hbyte, hroom⟩ := State.fetchInstr_ok h
  have hcount : s.pc.toNat + 1 + i.opcode.operandCount ≤ Config.memSize := by
    rwa [Opcode.length, ← Nat.add_assoc] at hroom
  have hfits := State.fetchInstr_of_fits (dispatch_eq_some.2 hbyte) hcount
  obtain hi := Except.ok.inj (h.symm.trans hfits)
  -- The operands stand at the front of the bytes that memory has after the first one.
  obtain ⟨rest, hrest⟩ : [s.mem.read (s.pc.toNat + 1), s.mem.read (s.pc.toNat + 2)].take i.opcode.operandCount <+:
      [s.mem.read (s.pc.toNat + 1), s.mem.read (s.pc.toNat + 2)].take (Config.memSize - (s.pc.toNat + 1)) :=
    List.take_isPrefix_take.2 (.inl (by omega))
  refine ⟨rest, ?_⟩
  rw [State.bytesAtPc_of_lt (by omega), hbyte, ← hrest, decode_byte_take_append, ← hi]

/-- What the decoder reads from the bytes at `pc`, the fetch reads. -/
theorem State.fetchInstr_of_decode_bytesAtPc {i : Instr} {rest : List Byte} (h : decode s.bytesAtPc = .ok (i, rest)) :
    s.fetchInstr = .ok i := by
  have hbytes := eq_encode_append_of_decode h
  rcases Nat.lt_or_ge s.pc.toNat Config.memSize with hpc | hpc
  · rw [State.bytesAtPc_of_lt hpc, encode, List.cons_append] at hbytes
    obtain ⟨hbyte, htail⟩ := List.cons.inj hbytes
    have hlen := congrArg List.length htail
    simp only [List.length_take, List.length_append, i.operandBytes_length] at hlen
    have hfits := State.fetchInstr_of_fits (dispatch_eq_some.2 hbyte) (by omega)
    obtain ⟨rest', h'⟩ := State.decode_bytesAtPc_of_fetchInstr hfits
    obtain ⟨hi, -⟩ := Prod.mk.inj (Except.ok.inj (h.symm.trans h'))
    rw [hfits, ← hi]
  · rw [State.bytesAtPc_of_le_pc hpc] at hbytes
    cases hbytes

/-- Settles O7: the decoded instruction is the fetched one. -/
theorem stepRunsTheDecodedInstruction : Obligations.StepRunsTheDecodedInstruction := fun _ _ _ hrun h =>
  step_of_fetchInstr_ok hrun (State.fetchInstr_of_decode_bytesAtPc h)

/-- A table word placed where three bytes have room is what stands at `pc`. -/
theorem State.bytesAtPc_withFetchWord (hpc : s.pc.toNat ≤ 253) (nbits w : Nat) :
    (s.withFetchWord nbits w).bytesAtPc = tableWordBytes nbits w := by
  have hroom : s.pc.toNat + 3 ≤ Config.memSize := Nat.add_le_add_right hpc 3
  have hread (k : Nat) (hk : k < (tableWordBytes nbits w).length) :
      (s.withFetchWord nbits w).mem.read (s.pc.toNat + k) = (tableWordBytes nbits w)[k] := by
    have hk3 : k < 3 := hk
    simp [State.withFetchWord, Memory.read_writeBytes, hk, show s.pc.toNat + k < Config.memSize by omega]
  rw [State.bytesAtPc_eq_take, List.take_of_length_le (show 3 ≤ Config.memSize - s.pc.toNat by omega)]
  exact congrArg₂ _ (hread 0 (by simp [tableWordBytes])) (congrArg₂ _ (hread 1 (by simp [tableWordBytes]))
    (congrArg₂ _ (hread 2 (by simp [tableWordBytes])) rfl))

theorem decode_of_decodeTableWord {nbits w : Nat} {i : Instr} (h : decodeTableWord nbits w = some i) :
    ∃ rest, decode (tableWordBytes nbits w) = .ok (i, rest) := by
  unfold decodeTableWord at h
  split at h
  next j rest hd => exact ⟨rest, by rw [hd, Option.some.inj h]⟩
  next => cases h

/-- Settles O13: the placed bytes are the bytes at `pc`, and a step runs what these decode to. -/
theorem placedWordIsTheOneRun : Obligations.PlacedWordIsTheOneRun := by
  intro s nbits w i hrun hpc h
  obtain ⟨rest, hd⟩ := decode_of_decodeTableWord h
  exact stepRunsTheDecodedInstruction _ i rest hrun (by rw [State.bytesAtPc_withFetchWord hpc, hd])

end Machine
end Sys2Proof
end

section
/-! PROOFS about what executing an instruction can do: `Completes` determines the next state, the causes a handler can
raise, and that operand bytes and `pc` alone settle whether it raises. -/

namespace Sys2Proof

theorem regByte_toNat (i : Fin Config.nregs) : (regByte i).toNat = i.val :=
  Nat.mod_eq_of_lt (i.isLt.trans (by decide))

theorem eq_regByte_of_val_eq {i : Fin Config.nregs} {b : Byte} (h : i.val = b.toNat) : b = regByte i :=
  BitVec.eq_of_toNat_eq (h.symm.trans (regByte_toNat i).symm)

theorem regNumber_or_ge (b : Byte) : (∃ i : Fin Config.nregs, i.val = b.toNat) ∨ Config.nregs ≤ b.toNat :=
  (Nat.lt_or_ge b.toNat Config.nregs).imp_left fun h => ⟨⟨b.toNat, h⟩, rfl⟩

namespace Machine

/-- The advance for each handler (rule R74), with the lengths of rule R52. -/
theorem State.finish_eq (s : State) (op : Opcode) :
    s.finish op = match op with
      | .hlt | .ret | .call | .jmp | .jeq | .jne => s
      | .push | .pop | .prn => s.setPc (s.pc + 2)
      | .ldi | .mul | .cmp => s.setPc (s.pc + 3) := by
  cases op <;> rfl

/-- The next state that `Completes` describes is the one that `exec` answers. -/
theorem exec_of_completes {ins : Instr} {s t : State} (h : Completes ins s t) : exec ins s = .next t := by
  cases ins with
  | hlt => subst h; rfl
  | ret => subst h; simp [exec, execRet, bind, Except.bind, pure, Except.pure, State.finish_eq]
  | push a | pop a | prn a | jmp a | jeq a | jne a =>
    obtain ⟨i, hi, rfl⟩ := h
    obtain rfl := eq_regByte_of_val_eq hi
    simp [exec, execPush, execPop, execPrn, execJmp, execJeq, execJne, bind, Except.bind, pure, Except.pure,
      State.finish_eq]
  | call a =>
    obtain ⟨i, hi, hpc, rfl⟩ := h
    obtain rfl := eq_regByte_of_val_eq hi
    simp only [exec, execCall, regIndex_regByte, State.push_eq, bind, Except.bind, pure, Except.pure, State.finish_eq,
      if_neg (Nat.not_lt.2 hpc), settle_ok]
    rfl
  | ldi a v =>
    obtain ⟨i, hi, h7, rfl⟩ := h
    obtain rfl := eq_regByte_of_val_eq hi
    simp [exec, execLdi, h7, bind, Except.bind, pure, Except.pure, State.finish_eq]
  | mul a b | cmp a b =>
    obtain ⟨i, j, hi, hj, rfl⟩ := h
    obtain rfl := eq_regByte_of_val_eq hi
    obtain rfl := eq_regByte_of_val_eq hj
    simp [exec, execMul, execCmp, bind, Except.bind, pure, Except.pure, State.finish_eq]

/-! ### The raises -/

/-- The causes that a handler can raise (spec/60_exceptions.md rules R121, R125), by instruction and its address. -/
inductive HandlerCause : Instr → PcWord → Cause → Prop where
  | badRegister (i : Instr) (pc : PcWord) {b : Byte} (h : Config.nregs ≤ b.toNat) :
      HandlerCause i pc (Cause.regBounds i.opcode.byte b)
  | protectedRegister (v : Byte) (pc : PcWord) :
      HandlerCause (.ldi (regByte Config.spIndex) v) pc (Cause.protectedRegister Opcode.ldi.byte Config.spIndex)
  | badReturnAddress (a : Byte) {pc : PcWord} (h : 255 < pc.toNat + 2) :
      HandlerCause (.call a) pc (Cause.memBounds Opcode.call.byte (pc.toNat + 2))

/-- An instruction's answer is a raise from the state it began in, or what `Completes` says. -/
theorem raises_or_completes_of_exec {i : Instr} {s t : State} (h : exec i s = .next t) :
    (∃ c, HandlerCause i s.pc c ∧ t = s.raise c) ∨ Completes i s t := by
  have next_eq {u : State} (hu : exec i s = .next u) : t = u := Host.Outcome.next.inj (h.symm.trans hu)
  rcases exec_cases i s with ⟨b, hb, hu⟩ | ⟨v, rfl, hu⟩ | ⟨a, rfl, hpc, hu⟩ | ⟨u, hu, hc⟩
  · exact .inl ⟨_, .badRegister i s.pc hb, next_eq hu⟩
  · exact .inl ⟨_, .protectedRegister v s.pc, next_eq hu⟩
  · exact .inl ⟨_, .badReturnAddress a hpc, next_eq hu⟩
  · exact .inr (next_eq hu ▸ hc)

/-- The first operand's check comes before everything else a handler does (rule R126). -/
theorem exec_of_bad_first_register {a b : Byte} (ha : Config.nregs ≤ a.toNat) (s : State) {i : Instr}
    (hi : i ∈ [Instr.push a, .pop a, .prn a, .call a, .jmp a, .jeq a, .jne a, .ldi a b, .mul a b, .cmp a b]) :
    exec i s = .next (s.raise (Cause.regBounds i.opcode.byte a)) := by
  simp only [List.mem_cons, List.not_mem_nil, or_false] at hi
  rcases hi with rfl | rfl | rfl | rfl | rfl | rfl | rfl | rfl | rfl | rfl <;>
    simp [exec, execPush, execPop, execPrn, execCall, execJmp, execJeq, execJne, execLdi, execMul, execCmp,
      regIndex_of_ge ha, bind, Except.bind, Instr.opcode]

theorem exec_of_bad_second_register (j : Fin Config.nregs) {b : Byte} (hb : Config.nregs ≤ b.toNat) (s : State)
    {i : Instr} (hi : i ∈ [Instr.mul (regByte j) b, .cmp (regByte j) b]) :
    exec i s = .next (s.raise (Cause.regBounds i.opcode.byte b)) := by
  simp only [List.mem_cons, List.not_mem_nil, or_false] at hi
  rcases hi with rfl | rfl <;> simp [exec, execMul, execCmp, regIndex_of_ge hb, bind, Except.bind, Instr.opcode]

/-- Settles O31: the record written out there is the one `State.raise` writes for `Cause.regBounds`. -/
theorem registerBytesAbove7Raise : Obligations.RegisterBytesAbove7Raise :=
  ⟨fun _ _ s ha _ hi => exec_of_bad_first_register ha s hi, fun j _ s hb _ hi => exec_of_bad_second_register j hb s hi⟩

theorem exec_ldi_spIndex (v : Byte) (s : State) :
    exec (.ldi (regByte Config.spIndex) v) s =
      .next (s.raise (Cause.protectedRegister Opcode.ldi.byte Config.spIndex)) := by
  simp [exec, execLdi, bind, Except.bind]

/-- The return address is checked before anything is pushed. -/
theorem exec_call_of_bad_return_address (i : Fin Config.nregs) {s : State} (hpc : 255 < s.pc.toNat + 2) :
    exec (.call (regByte i)) s = .next (s.raise (Cause.memBounds Opcode.call.byte (s.pc.toNat + 2))) := by
  simp only [exec, execCall, regIndex_regByte, bind, Except.bind, if_pos hpc, settle_error]

/-- Settles O33: the record written out there is the one `State.raise` writes for `Cause.memBounds`. -/
theorem callAtTheTopRaises : Obligations.CallAtTheTopRaises := fun i _ hpc => exec_call_of_bad_return_address i hpc

/-- Whether an instruction raises, and with which cause, is settled by its operand bytes and `pc`: either every state
at that `pc` raises the same cause, or every one completes. -/
theorem raises_or_completes_at (ins : Instr) (pc : PcWord) :
    (∃ c, ∀ s : State, s.pc = pc → exec ins s = .next (s.raise c)) ∨
      ∀ s : State, s.pc = pc → ∃ t, Completes ins s t := by
  cases ins with
  | hlt | ret => exact .inr fun s _ => ⟨_, rfl⟩
  | push a | pop a | prn a | jmp a | jeq a | jne a =>
    rcases regNumber_or_ge a with ⟨i, hi⟩ | ha
    · exact .inr fun s _ => ⟨_, i, hi, rfl⟩
    · exact .inl ⟨_, fun s _ => exec_of_bad_first_register (b := 0) ha s (by simp)⟩
  | call a =>
    rcases regNumber_or_ge a with ⟨i, hi⟩ | ha
    · by_cases hpc : pc.toNat + 2 ≤ 255
      · exact .inr fun s hs => ⟨_, i, hi, hs ▸ hpc, rfl⟩
      · obtain rfl := eq_regByte_of_val_eq hi
        refine .inl ⟨Cause.memBounds Opcode.call.byte (pc.toNat + 2), fun s hs => ?_⟩
        subst hs
        exact exec_call_of_bad_return_address i (Nat.not_le.1 hpc)
    · exact .inl ⟨_, fun s _ => exec_of_bad_first_register (b := 0) ha s (by simp)⟩
  | ldi a v =>
    rcases regNumber_or_ge a with ⟨i, hi⟩ | ha
    · by_cases h7 : i = Config.spIndex
      · obtain rfl := eq_regByte_of_val_eq hi
        exact .inl ⟨_, fun s _ => h7 ▸ exec_ldi_spIndex v s⟩
      · exact .inr fun s _ => ⟨_, i, hi, h7, rfl⟩
    · exact .inl ⟨_, fun s _ => exec_of_bad_first_register (b := v) ha s (by simp)⟩
  | mul a b | cmp a b =>
    rcases regNumber_or_ge a with ⟨i, hi⟩ | ha
    · rcases regNumber_or_ge b with ⟨j, hj⟩ | hb
      · exact .inr fun s _ => ⟨_, i, j, hi, hj, rfl⟩
      · obtain rfl := eq_regByte_of_val_eq hi
        exact .inl ⟨_, fun s _ => exec_of_bad_second_register i hb s (by simp)⟩
    · exact .inl ⟨_, fun s _ => exec_of_bad_first_register (b := b) ha s (by simp)⟩

end Machine
end Sys2Proof
end

section
/-! PROOFS about each instruction's own effect (spec/41_alu.md, 42_data_io.md, 43_stack.md, 44_control.md): by
`exec_of_completes` the next state is the one `Completes` describes, so what is left is that state's fields. -/

namespace Sys2Proof.Machine

/-! ### What the operations leave, in the terms of the statements -/

theorem State.reg_decSp (s : State) (i : Fin Config.nregs) :
    s.decSp.reg i = if i = Config.spIndex then s.x[7] - 1 else s.x[i.val] := by
  simp only [State.decSp, State.reg_setReg, eq_comm (a := Config.spIndex)]
  rfl

theorem aluMul_eq_ofNat_mod (p q : Byte) : aluMul p q = BitVec.ofNat 8 (p.toNat * q.toNat % 256) :=
  BitVec.eq_of_toNat_eq (by rw [aluMul_toNat, BitVec.toNat_ofNat, Nat.mod_mod])

theorem compareFlags_eq_ite (p q : Byte) :
    compareFlags p q =
      if p.toNat < q.toNat then 0b00000100#8 else if q.toNat < p.toNat then 0b00000010#8 else 0b00000001#8 := by
  rcases compareFlags_cases p q with ⟨h, hfl⟩ | ⟨h, hfl⟩ | ⟨rfl, hfl⟩
  · rw [hfl, if_pos h]; rfl
  · rw [hfl, if_neg (Nat.lt_asymm h), if_pos h]; rfl
  · simp [hfl]

theorem aluAdd_toNat (p q : Byte) : (aluAdd p q).toNat = (p.toNat + q.toNat) % 256 := BitVec.toNat_ofNat _ _

theorem aluAdd_comm (p q : Byte) : aluAdd p q = aluAdd q p := by
  rw [aluAdd, aluAdd, Nat.add_comm]

/-- Settles O16: the sum of naturals, cut to 8 bits, commutes. -/
theorem aluAddIsTheSumModulo256 : Obligations.AluAddIsTheSumModulo256 := fun p q =>
  ⟨aluAdd p q, rfl, aluAdd_toNat p q, congrArg AluOut.value (aluAdd_comm q p)⟩

/-! ### The twelve instructions -/

/-- Settles O19: this is `exec_hlt`. -/
theorem hltHalts : Obligations.HltHalts := exec_hlt

/-- Settles O20: LDI's completion, whose destination is not the stack pointer. -/
theorem ldiLoadsTheImmediate : Obligations.LdiLoadsTheImmediate := fun i _ _ h7 =>
  exec_of_completes ⟨i, (regByte_toNat i).symm, h7, rfl⟩

/-- Settles O21: PRN's completion. -/
theorem prnEmitsTheRegister : Obligations.PrnEmitsTheRegister := fun i _ =>
  exec_of_completes ⟨i, (regByte_toNat i).symm, rfl⟩

/-- Settles O22: MUL's completion, with the product reduced as `aluMul_eq_ofNat_mod` says. -/
theorem mulMultipliesModulo256 : Obligations.MulMultipliesModulo256 := fun i j _ =>
  exec_of_completes ⟨i, j, (regByte_toNat i).symm, (regByte_toNat j).symm, by rw [aluMul_eq_ofNat_mod]; rfl⟩

/-- Settles O23: CMP's completion, with the flags as `compareFlags_eq_ite` says. -/
theorem cmpReplacesTheFlags : Obligations.CmpReplacesTheFlags := fun i j _ =>
  exec_of_completes ⟨i, j, (regByte_toNat i).symm, (regByte_toNat j).symm, by rw [compareFlags_eq_ite]; rfl⟩

/-- Settles O24: the register is read after the decrement, `State.reg_decSp`. -/
theorem pushStoresBelowTheStackPointer : Obligations.PushStoresBelowTheStackPointer := fun i _ =>
  exec_of_completes ⟨i, (regByte_toNat i).symm, by rw [State.reg_decSp]; rfl⟩

/-- POP's destination is written before the increment, so for the stack pointer it is the popped byte that moves up. -/
theorem State.incSp_setReg (s : State) (i : Fin Config.nregs) (v : Byte) :
    (s.setReg i v).incSp =
      { s with x := if i = 7 then s.x.set 7 (v + 1) else (s.x.set i.val v).set 7 (s.x[7] + 1) } := by
  split
  next h => subst h; simp [State.incSp, State.setReg, State.sp, State.reg]
  next h => rw [State.incSp, State.sp, State.reg_setReg_of_ne s h]; rfl

/-- Settles O25: POP's completion, with the registers as `State.incSp_setReg` says. -/
theorem popLoadsFromTheStackPointer : Obligations.PopLoadsFromTheStackPointer := fun i _ =>
  exec_of_completes ⟨i, (regByte_toNat i).symm, by rw [State.incSp_setReg]; rfl⟩

/-- Settles O26: the target is read after the push, `State.reg_decSp`. -/
theorem callPushesTheReturnAddress : Obligations.CallPushesTheReturnAddress := fun i _ hpc =>
  exec_of_completes ⟨i, (regByte_toNat i).symm, hpc, by rw [State.reg_decSp]; rfl⟩

/-- Settles O27: RET's completion. -/
theorem retPopsThePc : Obligations.RetPopsThePc := fun s => exec_of_completes (ins := .ret) (s := s) rfl

/-- Settles O28: JMP's completion. -/
theorem jmpSetsThePc : Obligations.JmpSetsThePc := fun i _ => exec_of_completes ⟨i, (regByte_toNat i).symm, rfl⟩

/-- Settles O29: JEQ's completion, which tests the equal flag as the statement does. -/
theorem jeqBranchesWhenEqual : Obligations.JeqBranchesWhenEqual := fun i _ =>
  exec_of_completes ⟨i, (regByte_toNat i).symm, rfl⟩

/-- Settles O30: taken is the second branch of JNE's own test, so the two branches change places. -/
theorem jneBranchesWhenNotEqual : Obligations.JneBranchesWhenNotEqual := by
  intro i s
  refine exec_of_completes ⟨i, (regByte_toNat i).symm, ?_⟩
  cases h : s.fl.getLsbD 0 <;> (simp only [flagE, h]; rfl)

end Sys2Proof.Machine
end

section
/-! PROOFS over several instructions (spec/43_stack.md, stack discipline; spec/44_control.md, CALL and RET) and about
register 7 (spec/10_state.md rule R11). -/

namespace Sys2Proof.Machine

/-- Two below the stack pointer and one below it are different addresses, modulo 256 too. -/
theorem toNat_sub_one_sub_one_ne (p : Byte) : (p - 1#8 - 1#8).toNat ≠ (p - 1#8).toNat := by
  bv_omega

/-- Settles O41: the byte at `sp` after a PUSH is the one `pushStoresBelowTheStackPointer` stores there. -/
theorem stackPointerIsRegister7 : Obligations.StackPointerIsRegister7 := by
  refine ⟨rfl, fun _ => rfl, fun s v => s.reg_setReg_self 7 v, fun s => ⟨s.sp_decSp, s.sp_incSp⟩, fun i s => ?_⟩
  refine ⟨_, pushStoresBelowTheStackPointer i s, ?_⟩
  have hreg : s.decSp.x[i.val] = if i = 7 then s.x[7] - 1 else s.x[i.val] := s.reg_decSp i
  simp [State.sp, State.reg, hreg]

/-- Settles O43: POP reads the byte that PUSH stored; the two moves of the stack pointer cancel. -/
theorem pushThenPopRestores : Obligations.PushThenPopRestores := by
  intro i s
  refine ⟨_, _, pushStoresBelowTheStackPointer i s, popLoadsFromTheStackPointer i _, ?_, ?_⟩
  · by_cases h7 : i = 7
    · subst h7
      simp
    · have hi : (7 : Nat) ≠ i.val := fun e => h7 (Fin.ext e.symm)
      -- The popped register lies apart from the stack pointer, so the two writes of register 7 meet.
      simp [h7, Vector.set_comm _ _ hi]
  · simp

/-- Settles O44: the two bytes lie in different cells, so each POP reads the byte that its PUSH stored. -/
theorem stackIsLastInFirstOut : Obligations.StackIsLastInFirstOut := by
  intro a b c d s ha hb hc hd hcd
  refine ⟨_, _, _, _, pushStoresBelowTheStackPointer a s, pushStoresBelowTheStackPointer b _,
    popLoadsFromTheStackPointer c _, popLoadsFromTheStackPointer d _, ?_⟩
  have ne_seven {r : Fin 8} (h : r ≠ 7) : (7 : Nat) ≠ r.val := fun e => h (Fin.ext e.symm)
  have hdc : d.val ≠ c.val := fun e => hcd (Fin.ext e.symm)
  have hcells := toNat_sub_one_sub_one_ne s.x[7]
  simp [ha, hb, hc, hd, ne_seven, hdc, Memory.read_write, hcells, -BitVec.toNat_sub]

theorem zext9_ofNat_add_two {pc : PcWord} (h : pc.toNat + 2 ≤ 255) :
    zext9 (BitVec.ofNat 8 (pc.toNat + 2)) = pc + 2 := by
  bv_omega

/-- Settles O45: RET reads the return address that CALL stored and widens it back to `pc + 2`. -/
theorem retResumesAfterTheCall : Obligations.RetResumesAfterTheCall := by
  intro i s t u hpc hcall hsp hcell
  obtain rfl := Host.Outcome.next.inj (hcall.symm.trans (callPushesTheReturnAddress i s hpc))
  refine ⟨_, retPopsThePc u, ?_, ?_, fun r hr => ?_⟩
  · simpa [hcell] using zext9_ofNat_add_two hpc
  · simp [hsp]
  · have h7 : (7 : Nat) ≠ r.val := fun e => hr (Fin.ext e.symm)
    simp [h7]

/-- Settles O46: PRN reads the register that LDI wrote. -/
theorem ldiThenPrnEmitsTheValue : Obligations.LdiThenPrnEmitsTheValue := by
  intro i v s h7
  refine ⟨_, _, ldiLoadsTheImmediate i v s h7, prnEmitsTheRegister i _, ?_⟩
  simp

end Sys2Proof.Machine
end

section
/-! PROOFS about frames (spec/10_state.md sections 1 to 6; spec/40_engine_cycle.md rule R74): which fields an instruction
that completes can change. A raise changes `run` and `err` only, by the lemmas `State.raise_x` and on. -/

namespace Sys2Proof.Machine

theorem State.decSp_reg_of_ne (s : State) {r : Fin Config.nregs} (h : r ≠ Config.spIndex) : s.decSp.reg r = s.reg r :=
  s.reg_setReg_of_ne h.symm _

theorem State.incSp_reg_of_ne (s : State) {r : Fin Config.nregs} (h : r ≠ Config.spIndex) : s.incSp.reg r = s.reg r :=
  s.reg_setReg_of_ne h.symm _

/-- Settles O34: in each completion the registers written are the ones excluded there. -/
theorem registersKeptByEachInstruction : Obligations.RegistersKeptByEachInstruction := by
  intro i s t r h hr
  show t.reg r = s.reg r
  rcases raises_or_completes_of_exec h with ⟨c, -, rfl⟩ | hc
  · rfl
  have ne_of_val {i : Fin Config.nregs} {a : Byte} (hi : i.val = a.toNat) (hr : r.val ≠ a.toNat) : i ≠ r :=
    fun e => hr (e ▸ hi)
  cases i with
  | hlt => subst hc; rfl
  | ret => subst hc; exact State.incSp_reg_of_ne _ hr
  | push a => obtain ⟨i, -, rfl⟩ := hc; exact State.decSp_reg_of_ne _ hr
  | call a => obtain ⟨i, -, -, rfl⟩ := hc; exact State.decSp_reg_of_ne _ hr
  | pop a =>
    obtain ⟨i, hi, rfl⟩ := hc
    obtain ⟨hra, hr7⟩ := hr
    exact (State.incSp_reg_of_ne _ hr7).trans (State.reg_setReg_of_ne _ (ne_of_val hi hra) _)
  | prn a | jmp a | jeq a | jne a => obtain ⟨i, -, rfl⟩ := hc; rfl
  | ldi a v => obtain ⟨i, hi, -, rfl⟩ := hc; exact State.reg_setReg_of_ne _ (ne_of_val hi hr) _
  | mul a b => obtain ⟨i, j, hi, -, rfl⟩ := hc; exact State.reg_setReg_of_ne _ (ne_of_val hi hr) _
  | cmp a b => obtain ⟨i, j, -, -, rfl⟩ := hc; rfl

/-- What an instruction that completes does to memory: nothing, or PUSH's or CALL's one byte at the decremented stack
pointer. -/
theorem Completes.mem_eq {i : Instr} {s t : State} (h : Completes i s t) :
    t.mem = s.mem ∨
      ((∃ a, i = .push a ∨ i = .call a) ∧ ∃ v : Byte, t.mem = s.mem.write s.decSp.sp.toNat v) := by
  cases i with
  | hlt | ret => subst h; exact .inl rfl
  | push a => obtain ⟨i, -, rfl⟩ := h; exact .inr ⟨⟨a, .inl rfl⟩, _, by rw [State.sp_decSp]; rfl⟩
  | call a => obtain ⟨i, -, -, rfl⟩ := h; exact .inr ⟨⟨a, .inr rfl⟩, _, by rw [State.sp_decSp]; rfl⟩
  | pop a | prn a | jmp a | jeq a | jne a => obtain ⟨i, -, rfl⟩ := h; exact .inl rfl
  | ldi a v => obtain ⟨i, -, -, rfl⟩ := h; exact .inl rfl
  | mul a b | cmp a b => obtain ⟨i, j, -, -, rfl⟩ := h; exact .inl rfl

/-- Settles O35: `Completes.mem_eq`, and a read of a cell that was not written. -/
theorem memoryKeptByEachInstruction : Obligations.MemoryKeptByEachInstruction := by
  intro i s t a h ha
  rcases raises_or_completes_of_exec h with ⟨c, -, rfl⟩ | hc
  · rfl
  rcases hc.mem_eq with hmem | ⟨⟨b, rfl | rfl⟩, v, hmem⟩
  · rw [hmem]
  · rw [hmem, Memory.read_write_of_ne _ (Ne.symm ha)]
  · rw [hmem, Memory.read_write_of_ne _ (Ne.symm ha)]

theorem Completes.fl_eq {i : Instr} {s t : State} (h : Completes i s t) :
    t.fl = s.fl ∨ (i.opcode = .cmp ∧ ∃ p q : Byte, t.fl = compareFlags p q) := by
  cases i with
  | hlt | ret => subst h; exact .inl rfl
  | push a | pop a | prn a | jmp a | jeq a | jne a => obtain ⟨_, _, rfl⟩ := h; exact .inl rfl
  | call a | ldi a v => obtain ⟨_, _, _, rfl⟩ := h; exact .inl rfl
  | mul a b => obtain ⟨_, _, _, _, rfl⟩ := h; exact .inl rfl
  | cmp a b => obtain ⟨_, _, _, _, rfl⟩ := h; exact .inr ⟨rfl, _, _, rfl⟩

theorem Completes.out_eq {i : Instr} {s t : State} (h : Completes i s t) (hi : i.opcode ≠ .prn) : t.out = s.out := by
  cases i with
  | hlt | ret => subst h; rfl
  | prn a => exact absurd rfl hi
  | push a | pop a | jmp a | jeq a | jne a => obtain ⟨_, _, rfl⟩ := h; rfl
  | call a | ldi a v => obtain ⟨_, _, _, rfl⟩ := h; rfl
  | mul a b | cmp a b => obtain ⟨_, _, _, _, rfl⟩ := h; rfl

theorem Completes.ra_eq {i : Instr} {s t : State} (h : Completes i s t) (hcall : i.opcode ≠ .call)
    (hret : i.opcode ≠ .ret) : t.ra = s.ra := by
  cases i with
  | hlt => subst h; rfl
  | ret => exact absurd rfl hret
  | call a => exact absurd rfl hcall
  | push a | pop a | prn a | jmp a | jeq a | jne a => obtain ⟨_, _, rfl⟩ := h; rfl
  | ldi a v => obtain ⟨_, _, _, rfl⟩ := h; rfl
  | mul a b | cmp a b => obtain ⟨_, _, _, _, rfl⟩ := h; rfl

/-- Settles O36: one lemma for each field of a completion; a raise is the other alternative of the last clause. -/
theorem otherFieldsKeptByEachInstruction : Obligations.OtherFieldsKeptByEachInstruction := by
  intro i s t h
  rcases raises_or_completes_of_exec h with ⟨c, -, rfl⟩ | hc
  · exact ⟨fun _ => rfl, fun _ => rfl, fun _ _ => rfl, .inr ⟨c, rfl⟩⟩
  · exact ⟨fun hcmp => hc.fl_eq.resolve_right fun ⟨e, _⟩ => hcmp e, hc.out_eq, hc.ra_eq,
      .inl ⟨hc.err_eq, fun hhlt => hc.run_eq (by rintro rfl; exact hhlt rfl)⟩⟩

/-- The new `pc` of an instruction that completes: past its bytes, a byte widened, or, for HLT, the old one (rule R74). -/
theorem Completes.pc_eq {i : Instr} {s t : State} (h : Completes i s t) :
    t.pc = s.pc + BitVec.ofNat 9 i.opcode.length ∨
      (i.opcode.pcSetting = true ∧ (t.pc = s.pc ∨ ∃ b : Byte, t.pc = zext9 b)) := by
  rw [Opcode.length_eq]
  cases i with
  | hlt => subst h; exact .inr ⟨rfl, .inl rfl⟩
  | ret => subst h; exact .inr ⟨rfl, .inr ⟨_, rfl⟩⟩
  | push a | pop a | prn a => obtain ⟨_, _, rfl⟩ := h; exact .inl rfl
  | jmp a => obtain ⟨_, _, rfl⟩ := h; exact .inr ⟨rfl, .inr ⟨_, rfl⟩⟩
  | call a => obtain ⟨_, _, _, rfl⟩ := h; exact .inr ⟨rfl, .inr ⟨_, rfl⟩⟩
  | ldi a v => obtain ⟨_, _, _, rfl⟩ := h; exact .inl rfl
  | mul a b | cmp a b => obtain ⟨_, _, _, _, rfl⟩ := h; exact .inl rfl
  | jeq a =>
    obtain ⟨i, _, rfl⟩ := h
    rw [State.setPc_pc]
    split
    · exact .inr ⟨rfl, .inr ⟨_, rfl⟩⟩
    · exact .inl rfl
  | jne a =>
    obtain ⟨i, _, rfl⟩ := h
    rw [State.setPc_pc]
    split
    · exact .inl rfl
    · exact .inr ⟨rfl, .inr ⟨_, rfl⟩⟩

/-- An instruction that lies in memory does not make the 9-bit `pc` wrap (rule R13). -/
theorem toNat_add_length {pc : PcWord} {n : Nat} (h : pc.toNat + n ≤ Config.memSize) :
    (pc + BitVec.ofNat 9 n).toNat = pc.toNat + n := by
  have hlt : pc.toNat + n ≤ 256 := h
  rw [BitVec.toNat_add, BitVec.toNat_ofNat]
  omega

/-- Settles O37: an instruction that is not PC-setting completes past its bytes, which lie in memory. -/
theorem advanceIsTheInstructionLength : Obligations.AdvanceIsTheInstructionLength := by
  intro s t i rest hrun hdecode hi hstep herr
  have hnot : i.opcode.pcSetting = false := by
    simp only [List.mem_cons, List.not_mem_nil, or_false] at hi
    rcases hi with h | h | h | h | h | h <;> rw [h] <;> rfl
  have hf := State.fetchInstr_of_decode_bytesAtPc hdecode
  obtain ⟨-, hroom⟩ := State.fetchInstr_ok hf
  have hexec : exec i s = .next t := (step_of_fetchInstr_ok hrun hf).symm.trans hstep
  rcases raises_or_completes_of_exec hexec with ⟨c, -, rfl⟩ | hc
  · exact absurd rfl herr
  rcases hc.pc_eq with hpc | ⟨hset, -⟩
  · rw [hpc, toNat_add_length hroom, i.operandBytes_length]
    exact ⟨by rw [Opcode.length]; omega, hroom⟩
  · exact absurd hset (by simp [hnot])

end Sys2Proof.Machine
end

section
/-! PROOFS about errors (spec/60_exceptions.md rules R120 to R127): from which state and with which cause a step enters
the error state. -/

namespace Sys2Proof.Machine

theorem exec_answers_next (i : Instr) (s : State) : ∃ t, exec i s = .next t := by
  rcases exec_cases i s with ⟨_, _, h⟩ | ⟨_, _, h⟩ | ⟨_, _, _, h⟩ | ⟨_, h, _⟩ <;> exact ⟨_, h⟩

/-- Settles O11: idle, a raise or a handler, each answers a next state. -/
theorem everyStepAnswersNext : Obligations.EveryStepAnswersNext := by
  intro s
  rcases step_cases s with ⟨_, h⟩ | ⟨_, c, _, h⟩ | ⟨_, i, _, h⟩
  · exact ⟨_, h⟩
  · exact ⟨_, h⟩
  · exact h ▸ exec_answers_next i s

/-- The cause of a failing cycle: the fetch's, or the fetched handler's. -/
def State.FailsWith (s : State) (c : Cause) : Prop :=
  s.fetchInstr = .error c ∨ ∃ i, s.fetchInstr = .ok i ∧ HandlerCause i s.pc c

/-- What a cycle does: it fails with a cause and raises it, or the fetched instruction completes. -/
theorem raises_or_completes_of_step {s t : State} (hrun : s.run = .running) (h : step s = .next t) :
    (∃ c, s.FailsWith c ∧ t = s.raise c) ∨ ∃ i, s.fetchInstr = .ok i ∧ Completes i s t := by
  rcases step_cases s with ⟨hne, _⟩ | ⟨_, c, hf, hu⟩ | ⟨_, i, hf, hu⟩
  · exact absurd hrun hne
  · exact .inl ⟨c, .inl hf, Host.Outcome.next.inj (h.symm.trans hu)⟩
  · rcases raises_or_completes_of_exec (hu.symm.trans h) with ⟨c, hcause, ht⟩ | hc
    · exact .inl ⟨c, .inr ⟨i, hf, hcause⟩, ht⟩
    · exact .inr ⟨i, hf, hc⟩

/-- An instruction that completes from `running` does not end in the error state. -/
theorem Completes.run_ne_error {i : Instr} {s t : State} (h : Completes i s t) (hrun : s.run = .running) :
    t.run ≠ .error := by
  by_cases hi : i = .hlt
  · subst hi h
    simp
  · simp [h.run_eq hi, hrun]

theorem raises_of_step_to_error {s t : State} (hrun : s.run = .running) (h : step s = .next t) (herr : t.run = .error) :
    ∃ c, s.FailsWith c ∧ t = s.raise c := by
  rcases raises_or_completes_of_step hrun h with hraise | ⟨i, -, hc⟩
  · exact hraise
  · exact absurd herr (hc.run_ne_error hrun)

/-- The causes of the fetch below `MEM_SIZE`: an undefined byte, or operands missing at the top of memory. -/
theorem State.fetchInstr_error_of_lt {s : State} {c : Cause} (hpc : s.pc.toNat < Config.memSize)
    (h : s.fetchInstr = .error c) :
    (dispatch (s.mem.read s.pc.toNat) = none ∧ c = Cause.undefinedByte (s.mem.read s.pc.toNat)) ∨
      ∃ op : Opcode, s.mem.read s.pc.toNat = op.byte ∧ 254 ≤ s.pc.toNat ∧ c = Cause.memBounds op.byte Config.memSize := by
  rcases State.fetchInstr_error h with ⟨hge, -⟩ | hundef | ⟨op, k, hd, -, hk, htop, hc⟩
  · exact absurd hpc (Nat.not_lt.2 hge)
  · exact .inl hundef
  · have hle : op.operandCount ≤ 2 := op.operandCount_le
    have htop' : s.pc.toNat + k = 256 := htop
    exact .inr ⟨op, dispatch_eq_some.1 hd, by omega, hc⟩

/-- Settles O9: of all causes only the fetch's undefined byte has the kind `DecodeFailure`. -/
theorem undefinedByteIsDecodeFailure : Obligations.UndefinedByteIsDecodeFailure := by
  refine ⟨fun s hrun hpc hundef => ?_, fun s t hrun h herr hkind => ?_⟩
  · exact step_of_fetchInstr_error hrun (State.fetchInstr_of_undefined hpc (dispatch_eq_none_iff.2 hundef))
  · obtain ⟨c, hf | ⟨i, -, hcause⟩, rfl⟩ := raises_of_step_to_error hrun h herr
    · rcases Nat.lt_or_ge s.pc.toNat Config.memSize with hpc | hpc
      · rcases State.fetchInstr_error_of_lt hpc hf with ⟨hd, -⟩ | ⟨op, -, -, rfl⟩
        · exact ⟨hpc, dispatch_eq_none_iff.1 hd⟩
        · cases hkind
      · obtain rfl := Except.error.inj (hf.symm.trans (State.fetchInstr_of_le_pc hpc))
        cases hkind
    · cases hcause <;> cases hkind

/-- Settles O32: of all causes only the protected register has the kind `ProtectedRegisterWrite`, and that one is raised
by the handler of the fetched LDI. -/
theorem onlyLdiToR7IsProtected : Obligations.OnlyLdiToR7IsProtected := by
  refine ⟨exec_ldi_spIndex, fun s t hrun h herr hkind => ?_⟩
  obtain ⟨c, hf | ⟨i, hf, hcause⟩, rfl⟩ := raises_of_step_to_error hrun h herr
  · rcases State.fetchInstr_error hf with ⟨-, rfl⟩ | ⟨-, rfl⟩ | ⟨op, k, -, -, -, -, rfl⟩ <;> cases hkind
  · cases hcause with
    | badRegister | badReturnAddress => cases hkind
    | protectedRegister v => exact ⟨rfl, v, State.decode_bytesAtPc_of_fetchInstr hf⟩

/-! ### The record -/

/-- The record of a bad register operand is in the table of rule R121, whatever the `pc`. -/
theorem inTable_regBounds (op : Opcode) (pc : PcWord) {b : Byte} (h : Config.nregs ≤ b.toNat) :
    ErrorRecord.inTable ⟨.outOfBoundsAccess .reg, pc, op.byte, zext9 b⟩ = true := by
  have h8 : 8 ≤ b.toNat := h
  have hlt : b.toNat < 256 := b.isLt
  simp [ErrorRecord.inTable, Nat.mod_eq_of_lt (show b.toNat < 512 by omega), h8]
  omega

/-- The record of a defined instruction that does not fit, or whose return address does not, is in the table. -/
theorem inTable_memBounds (op : Opcode) {pc : PcWord} (hlow : 254 ≤ pc.toNat) (hhigh : pc.toNat < 256) :
    ErrorRecord.inTable ⟨.outOfBoundsAccess .mem, pc, op.byte, 256#9⟩ = true := by
  have hpc : pc = 254#9 ∨ pc = 255#9 := by bv_omega
  rcases hpc with rfl | rfl <;> simp [ErrorRecord.inTable]

theorem inTable_decodeFailure (pc : PcWord) {ir : Byte} (h : dispatch ir = none) :
    ErrorRecord.inTable ⟨.decodeFailure, pc, ir, zext9 ir⟩ = true := by
  simp [ErrorRecord.inTable, h]

/-- What a failing cycle records, from a `pc` that a run can have: the byte at `pc`, and a cause of the tables. -/
theorem State.FailsWith.record {s : State} {c : Cause} (h : s.FailsWith c) (hpc : s.pc.toNat ≤ Config.memSize) :
    (s.raise c).err.inTable = true ∧ c.kind ≠ .none ∧
      c.ir = if s.pc.toNat < 256 then s.mem.read s.pc.toNat else 0 := by
  rcases Nat.lt_or_eq_of_le hpc with hlt | htop
  · rw [if_pos hlt]
    rcases h with hf | ⟨i, hf, hcause⟩
    · rcases State.fetchInstr_error_of_lt hlt hf with ⟨hd, rfl⟩ | ⟨op, hbyte, hlow, rfl⟩
      · exact ⟨inTable_decodeFailure s.pc hd, by simp [Cause.undefinedByte], rfl⟩
      · exact ⟨inTable_memBounds op hlow hlt, by simp [Cause.memBounds], hbyte.symm⟩
    · obtain ⟨hbyte, hroom⟩ := State.fetchInstr_ok hf
      cases hcause with
      | badRegister _ _ hb => exact ⟨inTable_regBounds _ s.pc hb, by simp [Cause.regBounds], hbyte.symm⟩
      | protectedRegister v => exact ⟨rfl, by simp [Cause.protectedRegister], hbyte.symm⟩
      | badReturnAddress a hra =>
        have hlow : s.pc.toNat + 2 = 256 := by
          have hroom' : s.pc.toNat + 2 ≤ 256 := by rwa [Opcode.length_eq] at hroom
          omega
        refine ⟨?_, by simp [Cause.memBounds], hbyte.symm⟩
        rw [hlow]
        exact inTable_memBounds .call (by omega) hlt
  · have hf' := State.fetchInstr_of_le_pc (Nat.le_of_eq htop.symm)
    rw [if_neg (by rw [htop]; decide)]
    rcases h with hf | ⟨i, hf, -⟩
    · obtain rfl := Except.error.inj (hf.symm.trans hf')
      have hpc' : s.pc = 256#9 := BitVec.eq_of_toNat_eq htop
      exact ⟨by simp [Cause.memBounds, ErrorRecord.inTable, hpc'], by simp [Cause.memBounds], rfl⟩
    · cases hf.symm.trans hf'

/-- Settles O38: the step is a raise, and `State.FailsWith.record` says what it writes. -/
theorem errorsArePrecise : Obligations.ErrorsArePrecise := by
  intro s t hrun h herr hpc
  obtain ⟨c, hfails, rfl⟩ := raises_of_step_to_error hrun h herr
  obtain ⟨htable, hkind, hir⟩ := hfails.record hpc
  exact ⟨rfl, rfl, htable, hkind, hir⟩

end Sys2Proof.Machine
end

section
/-! PROOFS about the invariant (spec/10_state.md rules R13, R16, R19 and R21): a raise and a completion each keep it. -/

namespace Sys2Proof.Machine

theorem flagsLegal_compareFlags (p q : Byte) : flagsLegal (compareFlags p q) := by
  rcases compareFlags_cases p q with ⟨-, h⟩ | ⟨-, h⟩ | ⟨-, h⟩ <;> simp [flagsLegal, h]

theorem Completes.flagsLegal {i : Instr} {s t : State} (h : Completes i s t) (hs : flagsLegal s.fl) :
    Machine.flagsLegal t.fl := by
  rcases h.fl_eq with hfl | ⟨-, p, q, hfl⟩
  · exact hfl ▸ hs
  · exact hfl ▸ flagsLegal_compareFlags p q

theorem Completes.mem_wf {i : Instr} {s t : State} (h : Completes i s t) (hs : s.mem.wf) : t.mem.wf := by
  rcases h.mem_eq with hmem | ⟨-, v, hmem⟩
  · exact hmem ▸ hs
  · exact hmem ▸ Memory.wf_write hs s.decSp.sp.isLt v

/-- An instruction that lies in memory completes with `pc` at most `MEM_SIZE`. -/
theorem Completes.pc_le {i : Instr} {s t : State} (h : Completes i s t)
    (hroom : s.pc.toNat + i.opcode.length ≤ Config.memSize) : t.pc.toNat ≤ Config.memSize := by
  rcases h.pc_eq with hpc | ⟨-, hpc | ⟨b, hpc⟩⟩
  · rw [hpc, toNat_add_length hroom]
    exact hroom
  · rw [hpc]
    exact (Nat.le_add_right _ _).trans hroom
  · have hb : b.toNat < 256 := b.isLt
    rw [hpc, BitVec.toNat_setWidth_of_le (by decide)]
    exact Nat.le_of_lt hb

theorem State.Inv.raise {s : State} {c : Cause} (h : s.Inv) (hfails : s.FailsWith c) : (s.raise c).Inv := by
  obtain ⟨htable, hkind, -⟩ := hfails.record h.pcInRange
  exact {
    pcInRange := h.pcInRange
    flagsAreLegal := h.flagsAreLegal
    memoryIsCanonical := h.memoryIsCanonical
    recordInTable := htable
    recordIffError := iff_of_true rfl hkind
    recordPc := fun _ => rfl }

theorem State.Inv.completes {i : Instr} {s t : State} (h : s.Inv) (hrun : s.run = .running)
    (hf : s.fetchInstr = .ok i) (hc : Completes i s t) : t.Inv := by
  have hkind : s.err.kind = .none := by
    by_contra hne
    exact absurd (h.recordIffError.2 hne) (by simp [hrun])
  have hrun' : t.run ≠ .error := hc.run_ne_error hrun
  exact {
    pcInRange := hc.pc_le (State.fetchInstr_ok hf).2
    flagsAreLegal := hc.flagsLegal h.flagsAreLegal
    memoryIsCanonical := hc.mem_wf h.memoryIsCanonical
    recordInTable := hc.err_eq ▸ h.recordInTable
    recordIffError := iff_of_false hrun' (by simp [hc.err_eq, hkind])
    recordPc := fun herr => absurd herr hrun' }

/-- Settles O50: each field of the reset state is a fixed value. -/
theorem invariantHoldsAtReset : Obligations.InvariantHoldsAtReset where
  pcInRange := Nat.zero_le _
  flagsAreLegal := .inl rfl
  memoryIsCanonical := Memory.wf_nil
  recordInTable := rfl
  recordIffError := by decide
  recordPc := fun h => nomatch h

/-- Settles O51: a terminal state stays, and a cycle raises (`State.Inv.raise`) or completes (`State.Inv.completes`). -/
theorem invariantKeptByEveryStep : Obligations.InvariantKeptByEveryStep := by
  intro s t hs h
  by_cases hrun : s.run = .running
  · rcases raises_or_completes_of_step hrun h with ⟨c, hfails, rfl⟩ | ⟨i, hf, hc⟩
    · exact hs.raise hfails
    · exact hs.completes hrun hf hc
  · rw [step_of_terminal hrun h]
    exact hs

end Sys2Proof.Machine
end

section
/-! PROOFS about the canonical memory (spec/10_state.md rule R21; notes/assumptions/9.md): its entries are what its reads
say, so equal reads make equal lists. -/

namespace Sys2Proof.Machine

theorem Memory.read_of_mem {m : Memory} (hsorted : m.Pairwise fun c d => c.1 < d.1) {c : Host.Cell} (hc : c ∈ m) :
    m.read c.1 = c.2 := by
  induction m with
  | nil => cases hc
  | cons d m ih =>
    obtain ⟨hd, hm⟩ := List.pairwise_cons.1 hsorted
    rw [Memory.read_cons]
    rcases List.mem_cons.1 hc with rfl | hc
    · rw [if_pos rfl]
    · rw [if_neg (Nat.ne_of_lt (hd c hc)), ih hm hc]

theorem Memory.mem_of_read {m : Memory} {c : Host.Cell} (hread : m.read c.1 = c.2) (hne : c.2 ≠ Memory.unlisted) :
    c ∈ m := by
  induction m with
  | nil => exact absurd hread.symm hne
  | cons d m ih =>
    rw [Memory.read_cons] at hread
    split at hread
    next haddr => exact List.mem_cons.2 (.inl (Prod.ext haddr hread).symm)
    next => exact List.mem_cons_of_mem d (ih hread)

/-- Two memories that read alike, the first in canonical form: the second lists what the first lists. -/
theorem Memory.subset_of_read_eq {m m' : Memory} (h : m.wf) (hread : ∀ a < Config.memSize, m.read a = m'.read a) :
    m ⊆ m' := by
  intro c hc
  obtain ⟨hsorted, hcells⟩ := h
  obtain ⟨hlt, hne⟩ := hcells c hc
  exact Memory.mem_of_read ((hread c.1 hlt).symm.trans (Memory.read_of_mem hsorted hc)) hne

/-- Settles O18: the two lists have the same entries and are both in strictly rising order. -/
theorem canonicalMemoryIsUnique : Obligations.CanonicalMemoryIsUnique := by
  intro m m' h h' hread
  have hsub : m ⊆ m' := Memory.subset_of_read_eq h hread
  have hsub' : m' ⊆ m := Memory.subset_of_read_eq h' fun a ha => (hread a ha).symm
  have : Std.Irrefl fun c d : Host.Cell => c.1 < d.1 := ⟨fun c => Nat.lt_irrefl c.1⟩
  have : Std.Antisymm fun c d : Host.Cell => c.1 < d.1 := ⟨fun _ _ h h' => absurd h' (Nat.lt_asymm h)⟩
  exact List.Subset.antisymm_of_pairwise h.1 h'.1 hsub hsub'

end Sys2Proof.Machine
end

section
/-! PROOFS about the interfaces of the block (spec/10_state.md rules R25 and R28; spec/70_reset_and_hazards.md rule
R140). -/

namespace Sys2Proof.Machine

theorem reset_x : ∀ i : Fin 8, State.reset.x[i.val] = if i = 7 then 0xF4#8 else 0#8 := by decide

/-- Settles O40: `portReset` answers one block, whose fields are read off; the registers are evaluated in `reset_x`. -/
theorem resetLeavesTheTable : Obligations.ResetLeavesTheTable := fun _ =>
  ⟨reset_x, rfl, rfl, rfl, rfl, rfl, rfl, fun a _ => Memory.read_nil a⟩

/-- Settles O52: inside the contract the load is `portLoad_of_mayLoad`'s write of one cell, outside there is no move. -/
theorem loadOnlyBetweenResetAndStart : Obligations.LoadOnlyBetweenResetAndStart := by
  refine fun b => ⟨fun hphase hrun addr data => ?_, fun hout => ?_⟩
  · have hload : portLoad addr data b = some (b.setMem (b.core.mem.write addr.toNat data)) :=
      portLoad_of_mayLoad ⟨hphase, hrun⟩ addr data
    obtain ⟨-, -, hwf⟩ := portLoad_some hload
    refine ⟨_, hload, rfl, hwf, fun a _ => ?_⟩
    rw [Block.setMem_core, State.setMem_mem, Memory.read_write]
    simp only [eq_comm]
  · have hnot : ¬ b.mayLoad := by
      rintro ⟨hphase, hrun⟩
      rcases hout with h | h
      · cases hphase.symm.trans h
      · exact h hrun
    exact ⟨portLoad_of_not_mayLoad hnot, loadImage_of_not_mayLoad hnot⟩

/-- The block as a core of the host's, whose step is `Block.step`. -/
def blockCore : Host.Core :=
  { State := Block, Fault := Fault, Refusal := Refusal, step := Block.step, reset := Block.reset }

theorem blockStep_of_started {s t : State} (h : step s = .next t) :
    Block.step { phase := .started, core := s } = .next { phase := .started, core := t } := by
  rcases Block.step_cases { phase := .started, core := s } with ⟨hp, -⟩ | ⟨-, hstep⟩
  · cases hp
  · exact hstep t h

/-- After start the block runs as the core does, for any number of steps. -/
theorem run_blockCore_of_started (k : Nat) (s : State) :
    ∃ t, Host.Core.run core k s = .next t ∧
      Host.Core.run blockCore k { phase := .started, core := s } = .next { phase := .started, core := t } := by
  induction k generalizing s with
  | zero => exact ⟨s, rfl, rfl⟩
  | succ k ih =>
    obtain ⟨u, hu⟩ := everyStepAnswersNext s
    obtain ⟨t, hcore, hblock⟩ := ih u
    have hu' : core.step s = .next u := hu
    have hb : blockCore.step { phase := .started, core := s } = .next { phase := .started, core := u } :=
      blockStep_of_started hu
    exact ⟨t, by simpa only [Host.Core.run, hu'] using hcore, by simpa only [Host.Core.run, hb] using hblock⟩

/-- Settles O53: before start a step is the identity, after it `run_blockCore_of_started`. -/
theorem cyclesRunOnlyAfterStart : Obligations.CyclesRunOnlyAfterStart := by
  refine ⟨fun _ => rfl, fun b hphase => ?_, fun b k => run_blockCore_of_started k b.core⟩
  rcases Block.step_cases b with ⟨-, h⟩ | ⟨hstarted, -⟩
  · exact h
  · cases hphase.symm.trans hstarted

end Sys2Proof.Machine
end

section
/-! PROOFS about what never influences anything (spec/10_state.md rules R16, R17 and R20): a relation between states that
agree on all that is read, and that every update of the state keeps, is kept by every instruction and every run. The
latch, the output trace and the unread flags are each hidden by such a relation. -/

namespace Sys2Proof.Machine

/-- Two related states agree on all that an instruction or the fetch reads, and every update of both keeps them related. -/
structure Unobserved (R : State → State → Prop) : Prop where
  x_eq {s s' : State} : R s s' → s'.x = s.x
  pc_eq {s s' : State} : R s s' → s'.pc = s.pc
  flagE_eq {s s' : State} : R s s' → flagE s'.fl = flagE s.fl
  run_eq {s s' : State} : R s s' → s'.run = s.run
  mem_eq {s s' : State} : R s s' → s'.mem = s.mem
  setReg {s s' : State} : R s s' → ∀ (i : Fin Config.nregs) (v : Byte), R (s.setReg i v) (s'.setReg i v)
  setPc {s s' : State} : R s s' → ∀ v : PcWord, R (s.setPc v) (s'.setPc v)
  setFl {s s' : State} : R s s' → ∀ v : Byte, R (s.setFl v) (s'.setFl v)
  setRa {s s' : State} : R s s' → ∀ v : Byte, R (s.setRa v) (s'.setRa v)
  setRun {s s' : State} : R s s' → ∀ r : RunState, R (s.setRun r) (s'.setRun r)
  setMem {s s' : State} : R s s' → ∀ m : Memory, R (s.setMem m) (s'.setMem m)
  emit {s s' : State} : R s s' → ∀ v : Byte, R (s.emit v) (s'.emit v)
  raise {s s' : State} : R s s' → ∀ c : Cause, R (s.raise c) (s'.raise c)

namespace Unobserved

variable {R : State → State → Prop} {s s' : State}

theorem reg_eq (hR : Unobserved R) (h : R s s') (i : Fin Config.nregs) : s'.reg i = s.reg i := by
  rw [State.reg, State.reg, hR.x_eq h]

theorem sp_eq (hR : Unobserved R) (h : R s s') : s'.sp = s.sp := hR.reg_eq h Config.spIndex

theorem decSp (hR : Unobserved R) (h : R s s') : R s.decSp s'.decSp := by
  rw [State.decSp, State.decSp, hR.sp_eq h]
  exact hR.setReg h _ _

theorem incSp (hR : Unobserved R) (h : R s s') : R s.incSp s'.incSp := by
  rw [State.incSp, State.incSp, hR.sp_eq h]
  exact hR.setReg h _ _

/-- Where an instruction completes from one state it completes from a related one, in related states. -/
theorem completes_related (hR : Unobserved R) (h : R s s') {ins : Instr} {t : State} (hc : Completes ins s t) :
    ∃ t', Completes ins s' t' ∧ R t t' := by
  have hreg := hR.reg_eq h
  have hreg' := hR.reg_eq (hR.decSp h)
  have hpc := hR.pc_eq h
  have hsp := hR.sp_eq h
  have hmem := hR.mem_eq h
  have hflag := hR.flagE_eq h
  cases ins with
  | hlt => subst hc; exact ⟨_, rfl, hR.setRun h _⟩
  | ret =>
    subst hc
    refine ⟨_, rfl, ?_⟩
    rw [hsp, hmem]
    exact hR.setPc (hR.incSp (hR.setRa h _)) _
  | push a =>
    obtain ⟨i, hi, rfl⟩ := hc
    refine ⟨_, ⟨i, hi, rfl⟩, ?_⟩
    rw [hreg', hsp, hmem, hpc]
    exact hR.setPc (hR.setMem (hR.decSp h) _) _
  | pop a =>
    obtain ⟨i, hi, rfl⟩ := hc
    refine ⟨_, ⟨i, hi, rfl⟩, ?_⟩
    rw [hsp, hmem, hpc]
    exact hR.setPc (hR.incSp (hR.setReg h _ _)) _
  | prn a =>
    obtain ⟨i, hi, rfl⟩ := hc
    refine ⟨_, ⟨i, hi, rfl⟩, ?_⟩
    rw [hreg, hpc]
    exact hR.setPc (hR.emit h _) _
  | call a =>
    obtain ⟨i, hi, hroom, rfl⟩ := hc
    refine ⟨_, ⟨i, hi, hpc ▸ hroom, rfl⟩, ?_⟩
    rw [hreg', hsp, hmem, hpc]
    exact hR.setPc (hR.setMem (hR.setRa (hR.decSp h) _) _) _
  | jmp a | jeq a | jne a =>
    obtain ⟨i, hi, rfl⟩ := hc
    refine ⟨_, ⟨i, hi, rfl⟩, ?_⟩
    simp only [hreg, hpc, hflag]
    exact hR.setPc h _
  | ldi a v =>
    obtain ⟨i, hi, h7, rfl⟩ := hc
    refine ⟨_, ⟨i, hi, h7, rfl⟩, ?_⟩
    rw [hpc]
    exact hR.setPc (hR.setReg h _ _) _
  | mul a b =>
    obtain ⟨i, j, hi, hj, rfl⟩ := hc
    refine ⟨_, ⟨i, j, hi, hj, rfl⟩, ?_⟩
    rw [hreg, hreg, hpc]
    exact hR.setPc (hR.setReg h _ _) _
  | cmp a b =>
    obtain ⟨i, j, hi, hj, rfl⟩ := hc
    refine ⟨_, ⟨i, j, hi, hj, rfl⟩, ?_⟩
    rw [hreg, hreg, hpc]
    exact hR.setPc (hR.setFl h _) _

theorem exec_related (hR : Unobserved R) (h : R s s') (ins : Instr) :
    ∃ t t', exec ins s = .next t ∧ exec ins s' = .next t' ∧ R t t' := by
  rcases raises_or_completes_at ins s.pc with ⟨c, hraise⟩ | hcompletes
  · exact ⟨_, _, hraise s rfl, hraise s' (hR.pc_eq h), hR.raise h c⟩
  · obtain ⟨t, hc⟩ := hcompletes s rfl
    obtain ⟨t', hc', ht⟩ := hR.completes_related h hc
    exact ⟨t, t', exec_of_completes hc, exec_of_completes hc', ht⟩

theorem step_related (hR : Unobserved R) (h : R s s') :
    ∃ t t', step s = .next t ∧ step s' = .next t' ∧ R t t' := by
  have hrun := hR.run_eq h
  have hfetch : s'.fetchInstr = s.fetchInstr := by
    simp only [State.fetchInstr_eq, hR.pc_eq h, hR.mem_eq h]
  rcases step_cases s with ⟨hr, hs⟩ | ⟨hr, c, hf, hs⟩ | ⟨hr, i, hf, hs⟩
  · exact ⟨s, s', hs, step_eq_self_of_terminal (by rwa [State.Terminal, hrun]), h⟩
  · exact ⟨_, _, hs, step_of_fetchInstr_error (hrun.trans hr) (hfetch.trans hf), hR.raise h c⟩
  · rw [hs, step_of_fetchInstr_ok (hrun.trans hr) (hfetch.trans hf)]
    exact hR.exec_related h i

/-- Runs of any length from related states end in related states. -/
theorem run_related (hR : Unobserved R) (h : R s s') (k : Nat) :
    ∃ t t', Host.Core.run core k s = .next t ∧ Host.Core.run core k s' = .next t' ∧ R t t' := by
  induction k generalizing s s' with
  | zero => exact ⟨s, s', rfl, rfl, h⟩
  | succ k ih =>
    obtain ⟨u, u', hu, hu', hR'⟩ := hR.step_related h
    obtain ⟨t, t', ht, ht', hend⟩ := ih hR'
    replace hu : core.step s = .next u := hu
    replace hu' : core.step s' = .next u' := hu'
    exact ⟨t, t', by simpa only [Host.Core.run, hu] using ht, by simpa only [Host.Core.run, hu'] using ht', hend⟩

end Unobserved

/-! ### The return-address latch (rule R17) -/

/-- The second state is the first but for the latch. -/
def AlikeButRa (s s' : State) : Prop := ∃ r : Byte, s' = { s with ra := r }

theorem unobserved_alikeButRa : Unobserved AlikeButRa where
  x_eq := by rintro s _ ⟨r, rfl⟩; rfl
  pc_eq := by rintro s _ ⟨r, rfl⟩; rfl
  flagE_eq := by rintro s _ ⟨r, rfl⟩; rfl
  run_eq := by rintro s _ ⟨r, rfl⟩; rfl
  mem_eq := by rintro s _ ⟨r, rfl⟩; rfl
  setReg := by rintro s _ ⟨r, rfl⟩ i v; exact ⟨r, rfl⟩
  setPc := by rintro s _ ⟨r, rfl⟩ v; exact ⟨r, rfl⟩
  setFl := by rintro s _ ⟨r, rfl⟩ v; exact ⟨r, rfl⟩
  setRa := by rintro s _ ⟨r, rfl⟩ v; exact ⟨v, rfl⟩
  setRun := by rintro s _ ⟨r, rfl⟩ v; exact ⟨r, rfl⟩
  setMem := by rintro s _ ⟨r, rfl⟩ m; exact ⟨r, rfl⟩
  emit := by rintro s _ ⟨r, rfl⟩ v; exact ⟨r, rfl⟩
  raise := by rintro s _ ⟨r, rfl⟩ c; exact ⟨r, rfl⟩

/-- Settles O47: runs from two states that differ in the latch stay so related, `unobserved_alikeButRa`. -/
theorem returnLatchIsUnobservable : Obligations.ReturnLatchIsUnobservable := by
  intro k s r
  obtain ⟨t, _, ht, ht', r', rfl⟩ := unobserved_alikeButRa.run_related ⟨r, rfl⟩ k
  exact ⟨t, r', ht, ht'⟩

/-! ### The output trace (rule R20) -/

/-- The second state is the first with more bytes at the front of the output trace. -/
def AlikeWithEarlierOutput (before : List Byte) (s s' : State) : Prop := s' = { s with out := before ++ s.out }

theorem unobserved_alikeWithEarlierOutput (before : List Byte) : Unobserved (AlikeWithEarlierOutput before) where
  x_eq := by rintro s _ rfl; rfl
  pc_eq := by rintro s _ rfl; rfl
  flagE_eq := by rintro s _ rfl; rfl
  run_eq := by rintro s _ rfl; rfl
  mem_eq := by rintro s _ rfl; rfl
  setReg := by rintro s _ rfl i v; rfl
  setPc := by rintro s _ rfl v; rfl
  setFl := by rintro s _ rfl v; rfl
  setRa := by rintro s _ rfl v; rfl
  setRun := by rintro s _ rfl v; rfl
  setMem := by rintro s _ rfl m; rfl
  emit := by rintro s _ rfl v; simp [AlikeWithEarlierOutput, State.emit]
  raise := by rintro s _ rfl c; rfl

/-- Settles O48: the earlier bytes stay in front, `unobserved_alikeWithEarlierOutput`. -/
theorem outputIsNeverRead : Obligations.OutputIsNeverRead := by
  intro k s before
  obtain ⟨t, _, ht, ht', rfl⟩ := (unobserved_alikeWithEarlierOutput before).run_related (s := s) rfl k
  exact ⟨t, ht, ht'⟩

/-! ### The flags that no instruction reads (rule R16) -/

/-- The second state is the first but for flags other than the equal flag. -/
def AlikeButUnreadFlags (s s' : State) : Prop := ∃ fl : Byte, flagE fl = flagE s.fl ∧ s' = { s with fl := fl }

theorem unobserved_alikeButUnreadFlags : Unobserved AlikeButUnreadFlags where
  x_eq := by rintro s _ ⟨fl, he, rfl⟩; rfl
  pc_eq := by rintro s _ ⟨fl, he, rfl⟩; rfl
  flagE_eq := by rintro s _ ⟨fl, he, rfl⟩; exact he
  run_eq := by rintro s _ ⟨fl, he, rfl⟩; rfl
  mem_eq := by rintro s _ ⟨fl, he, rfl⟩; rfl
  setReg := by rintro s _ ⟨fl, he, rfl⟩ i v; exact ⟨fl, he, rfl⟩
  setPc := by rintro s _ ⟨fl, he, rfl⟩ v; exact ⟨fl, he, rfl⟩
  setFl := by rintro s _ ⟨fl, he, rfl⟩ v; exact ⟨v, rfl, rfl⟩
  setRa := by rintro s _ ⟨fl, he, rfl⟩ v; exact ⟨fl, he, rfl⟩
  setRun := by rintro s _ ⟨fl, he, rfl⟩ v; exact ⟨fl, he, rfl⟩
  setMem := by rintro s _ ⟨fl, he, rfl⟩ m; exact ⟨fl, he, rfl⟩
  emit := by rintro s _ ⟨fl, he, rfl⟩ v; exact ⟨fl, he, rfl⟩
  raise := by rintro s _ ⟨fl, he, rfl⟩ c; exact ⟨fl, he, rfl⟩

/-- Settles O49: one instruction keeps the relation `unobserved_alikeButUnreadFlags` is about. -/
theorem onlyTheEqualFlagIsRead : Obligations.OnlyTheEqualFlagIsRead := by
  intro i s fl he
  obtain ⟨t, _, ht, ht', fl', -, rfl⟩ := unobserved_alikeButUnreadFlags.exec_related ⟨fl, he, rfl⟩ i
  exact ⟨t, fl', ht, ht'⟩

end Sys2Proof.Machine
end
